-- ==== Sys2Proof/Config.lean ====
section
/-! DEFINITION. The two parameters the spec leaves open: `MEM_SIZE` and `EXIT_CSR` (00_scope.md R6, 92_eei_decisions.md D2, D3).
The spec leaves no value of the core free (93_implementation_defined.md, end of part 1), so there is no opaque constant here. -/

namespace Sys2Proof

/-- The open parameters of the hardware, fixed for a run (00_scope.md R6).
DESIGN CHOICE (log entry 1): a state carries them, so a statement about every state holds for every value of them. -/
structure Config where
  /-- `MEM_SIZE`: the bytes of the memory buffer. -/
  memSize : Nat
  /-- `EXIT_CSR`: the CSR selector that makes a CSRRW the exit sentinel (44_system.md R187). -/
  exitCsr : BitVec 12
  deriving DecidableEq, Repr

/-- The range the spec allows: `4 <= MEM_SIZE <= 2^31` (00_scope.md R6); `EXIT_CSR` may be any 12-bit value. -/
abbrev Config.wf (c : Config) : Prop := 4 ≤ c.memSize ∧ c.memSize ≤ 2 ^ 31

end Sys2Proof
end

