-- ==== Sys2Proof/Word.lean ====
section
/-! DEFINITION. The word types of the machine: 32-bit words, bytes, 5-bit register numbers (00_scope.md R6, R7). -/

namespace Sys2Proof

/-- A 32-bit value: every register, address, immediate and ALU operand (00_scope.md R6 `XLEN`, R7). -/
abbrev Word := BitVec 32

/-- The unit of addressing (20_memory.md R40). -/
abbrev Byte := BitVec 8

/-- A register number as an instruction names it: 5 bits, so 0 to 31 and nothing else (10_state.md R20). -/
abbrev Reg := BitVec 5

end Sys2Proof
end

