-- ==== Sys2Proof/Machine/Params.lean ====
section
/-! DEFINITION. The fixed parameters of the hardware (00_scope.md R6) and the values of the open ones that `State.reset` takes. -/

namespace Sys2Proof.Machine

/-- `MEM_BASE`: the address of memory offset 0 (00_scope.md R6, 20_memory.md R40). -/
def memBase : Nat := 0x80000000

/-- `ENTRY`: the pc the host seeds before the first step (00_scope.md R6, 70_reset_and_hazards.md R222). -/
def entry : Word := 0x80000000#32

/-- `STATUS_REG`: the register ECALL inspects, x3 (00_scope.md R6, 90_conflicts.md C1). -/
def statusReg : Reg := 3#5

/-- DESIGN CHOICE (log entry 1): the parameter values of `State.reset` and `decodeTableWord`: `MEM_SIZE = 0x1_0000` and `EXIT_CSR = 0xC00`,
the common conditions of the spec's own vectors (95_test_vectors.md). -/
def referenceConfig : Config := { memSize := 0x10000, exitCsr := 0xC00#12 }

end Sys2Proof.Machine
end

