-- ==== Sys2Proof/WellFormed.lean ====
section
/-! DEFINITION. Which terms of `Instr` are instructions of the hardware: branch and JAL offsets are even (30_encoding.md R69, R71) and a
CSRRW whose selector is `EXIT_CSR` is the exit sentinel, not a CSRRW (44_system.md R186, R187). -/

namespace Sys2Proof

/-- Bit 0 of a B- or J-immediate is "implicitly 0, never set" (30_encoding.md R69, R71). -/
def evenOffset {w : Nat} (imm : BitVec w) : Bool := !imm.getLsbD 0

/-- The check on every instruction, for the parameters `c`. -/
def Instr.wellFormed (c : Config) : Instr → Bool
  | .jal _ imm => evenOffset imm
  | .beq _ _ imm => evenOffset imm
  | .bne _ _ imm => evenOffset imm
  | .blt _ _ imm => evenOffset imm
  | .bge _ _ imm => evenOffset imm
  | .bltu _ _ imm => evenOffset imm
  | .bgeu _ _ imm => evenOffset imm
  | .csrrw _ _ csr => decide (csr ≠ c.exitCsr)
  | .add .. | .sub .. | .sll .. | .slt .. | .sltu .. | .xor .. | .srl .. | .sra .. | .or .. | .and .. => true
  | .addi .. | .slti .. | .sltiu .. | .xori .. | .ori .. | .andi .. | .slli .. | .srli .. | .srai .. => true
  | .lui .. | .auipc .. | .jalr .. => true
  | .lb .. | .lh .. | .lw .. | .lbu .. | .lhu .. | .sb .. | .sh .. | .sw .. => true
  | .fence .. | .fenceI .. | .ecall .. | .csrrwExit .. => true
  | .csrrs .. | .csrrc .. | .csrrwi .. | .csrrsi .. | .csrrci .. => true

end Sys2Proof
end

