-- ==== Sys2Proof/Decode.lean ====
section
/-! DEFINITION. The decoder, total on every word and rejecting by name (30_encoding.md R60 to R83), and the encoder written from the same formats.
Numeric opcode, funct3 and funct7 values are the spec's, from its general knowledge of RV32I (92_eei_decisions.md D1; log entry 2). -/

namespace Sys2Proof

/-! ### Fields of a word (30_encoding.md R61 to R66) -/

def opcodeOf (w : Word) : BitVec 7 := w.extractLsb' 0 7
def rdOf (w : Word) : Reg := w.extractLsb' 7 5
def funct3Of (w : Word) : BitVec 3 := w.extractLsb' 12 3
def rs1Of (w : Word) : Reg := w.extractLsb' 15 5
def rs2Of (w : Word) : Reg := w.extractLsb' 20 5
def funct7Of (w : Word) : BitVec 7 := w.extractLsb' 25 7

/-! ### Immediate fields, before sign extension (30_encoding.md R67 to R71) -/

/-- `word[31:20]`: the I-immediate, and the CSR selector of a SYSTEM word (R67, R72). -/
def immIOf (w : Word) : BitVec 12 := w.extractLsb' 20 12

/-- word[31:25] above word[11:7] (R68). -/
def immSOf (w : Word) : BitVec 12 := w.extractLsb' 25 7 ++ w.extractLsb' 7 5

/-- word[31], word[7], word[30:25], word[11:8], 0 (R69). -/
def immBOf (w : Word) : BitVec 13 :=
  w.extractLsb' 31 1 ++ w.extractLsb' 7 1 ++ w.extractLsb' 25 6 ++ w.extractLsb' 8 4 ++ 0#1

/-- word[31:12] (R70). -/
def immUOf (w : Word) : BitVec 20 := w.extractLsb' 12 20

/-- word[31], word[19:12], word[20], word[30:21], 0 (R71). -/
def immJOf (w : Word) : BitVec 21 :=
  w.extractLsb' 31 1 ++ w.extractLsb' 12 8 ++ w.extractLsb' 20 1 ++ w.extractLsb' 21 10 ++ 0#1

/-! ### Opcode classes (30_encoding.md R74) -/

/-- The eleven classes the decoder recognises, under the document's names. -/
inductive OpClass where
  | lui | auipc | jal | jalr | branch | load | store | imm | op | miscFence | system
  deriving DecidableEq, Repr

/-- The class an opcode selects; none for the other 117 values (R74). -/
def opcodeClass (op : BitVec 7) : Option OpClass :=
  match op with
  | 0b0110111#7 => some .lui
  | 0b0010111#7 => some .auipc
  | 0b1101111#7 => some .jal
  | 0b1100111#7 => some .jalr
  | 0b1100011#7 => some .branch
  | 0b0000011#7 => some .load
  | 0b0100011#7 => some .store
  | 0b0010011#7 => some .imm
  | 0b0110011#7 => some .op
  | 0b0001111#7 => some .miscFence
  | 0b1110011#7 => some .system
  | _ => none

/-! ### The decoder -/

/-- Why a word is no instruction: which of the two decode faults it raises (60_exceptions.md R202, R203). -/
inductive DecodeError where
  /-- The opcode is none of the eleven classes (R74, R202). -/
  | unsupportedOpcode
  /-- A recognised opcode with a funct3/funct7 combination that no instruction has (R83, R203). -/
  | unsupportedFunct3
  deriving DecidableEq, Repr

/-- OP words (R75): funct7 0000000 with any funct3, 0100000 with 000 and 101 only. -/
def decodeOp (w : Word) : Except DecodeError Instr :=
  match funct7Of w, funct3Of w with
  | 0b0000000#7, 0b000#3 => .ok (.add (rdOf w) (rs1Of w) (rs2Of w))
  | 0b0100000#7, 0b000#3 => .ok (.sub (rdOf w) (rs1Of w) (rs2Of w))
  | 0b0000000#7, 0b001#3 => .ok (.sll (rdOf w) (rs1Of w) (rs2Of w))
  | 0b0000000#7, 0b010#3 => .ok (.slt (rdOf w) (rs1Of w) (rs2Of w))
  | 0b0000000#7, 0b011#3 => .ok (.sltu (rdOf w) (rs1Of w) (rs2Of w))
  | 0b0000000#7, 0b100#3 => .ok (.xor (rdOf w) (rs1Of w) (rs2Of w))
  | 0b0000000#7, 0b101#3 => .ok (.srl (rdOf w) (rs1Of w) (rs2Of w))
  | 0b0100000#7, 0b101#3 => .ok (.sra (rdOf w) (rs1Of w) (rs2Of w))
  | 0b0000000#7, 0b110#3 => .ok (.or (rdOf w) (rs1Of w) (rs2Of w))
  | 0b0000000#7, 0b111#3 => .ok (.and (rdOf w) (rs1Of w) (rs2Of w))
  | _, _ => .error .unsupportedFunct3

/-- The IMM words with funct3 001 and 101, whose word[31:25] is a selector and word[24:20] the shift amount (R76). -/
def decodeShiftImm (w : Word) : Except DecodeError Instr :=
  match funct7Of w, funct3Of w with
  | 0b0000000#7, 0b001#3 => .ok (.slli (rdOf w) (rs1Of w) (rs2Of w))
  | 0b0000000#7, 0b101#3 => .ok (.srli (rdOf w) (rs1Of w) (rs2Of w))
  | 0b0100000#7, 0b101#3 => .ok (.srai (rdOf w) (rs1Of w) (rs2Of w))
  | _, _ => .error .unsupportedFunct3

/-- IMM words (R76): `alt` exists for funct3 101 only (90_conflicts.md C7). -/
def decodeImm (w : Word) : Except DecodeError Instr :=
  match funct3Of w with
  | 0b000#3 => .ok (.addi (rdOf w) (rs1Of w) (immIOf w))
  | 0b010#3 => .ok (.slti (rdOf w) (rs1Of w) (immIOf w))
  | 0b011#3 => .ok (.sltiu (rdOf w) (rs1Of w) (immIOf w))
  | 0b100#3 => .ok (.xori (rdOf w) (rs1Of w) (immIOf w))
  | 0b110#3 => .ok (.ori (rdOf w) (rs1Of w) (immIOf w))
  | 0b111#3 => .ok (.andi (rdOf w) (rs1Of w) (immIOf w))
  | _ => decodeShiftImm w

/-- BRANCH words (R77): funct3 010 and 011 are no branch. -/
def decodeBranch (w : Word) : Except DecodeError Instr :=
  match funct3Of w with
  | 0b000#3 => .ok (.beq (rs1Of w) (rs2Of w) (immBOf w))
  | 0b001#3 => .ok (.bne (rs1Of w) (rs2Of w) (immBOf w))
  | 0b100#3 => .ok (.blt (rs1Of w) (rs2Of w) (immBOf w))
  | 0b101#3 => .ok (.bge (rs1Of w) (rs2Of w) (immBOf w))
  | 0b110#3 => .ok (.bltu (rs1Of w) (rs2Of w) (immBOf w))
  | 0b111#3 => .ok (.bgeu (rs1Of w) (rs2Of w) (immBOf w))
  | _ => .error .unsupportedFunct3

/-- LOAD words (R78). -/
def decodeLoad (w : Word) : Except DecodeError Instr :=
  match funct3Of w with
  | 0b000#3 => .ok (.lb (rdOf w) (rs1Of w) (immIOf w))
  | 0b001#3 => .ok (.lh (rdOf w) (rs1Of w) (immIOf w))
  | 0b010#3 => .ok (.lw (rdOf w) (rs1Of w) (immIOf w))
  | 0b100#3 => .ok (.lbu (rdOf w) (rs1Of w) (immIOf w))
  | 0b101#3 => .ok (.lhu (rdOf w) (rs1Of w) (immIOf w))
  | _ => .error .unsupportedFunct3

/-- STORE words (R79). -/
def decodeStore (w : Word) : Except DecodeError Instr :=
  match funct3Of w with
  | 0b000#3 => .ok (.sb (rs1Of w) (rs2Of w) (immSOf w))
  | 0b001#3 => .ok (.sh (rs1Of w) (rs2Of w) (immSOf w))
  | 0b010#3 => .ok (.sw (rs1Of w) (rs2Of w) (immSOf w))
  | _ => .error .unsupportedFunct3

/-- JALR words (R80): funct3 000 only. -/
def decodeJalr (w : Word) : Except DecodeError Instr :=
  match funct3Of w with
  | 0b000#3 => .ok (.jalr (rdOf w) (rs1Of w) (immIOf w))
  | _ => .error .unsupportedFunct3

/-- MISC-FENCE words (R81): rd, rs1 and word[31:20] select nothing. -/
def decodeMiscFence (w : Word) : Except DecodeError Instr :=
  match funct3Of w with
  | 0b000#3 => .ok (.fence (rdOf w) (rs1Of w) (immIOf w))
  | 0b001#3 => .ok (.fenceI (rdOf w) (rs1Of w) (immIOf w))
  | _ => .error .unsupportedFunct3

/-- SYSTEM words (R82): the exit sentinel is the CSRRW whose selector equals the parameter `EXIT_CSR` (44_system.md R187). -/
def decodeSystem (exitCsr : BitVec 12) (w : Word) : Except DecodeError Instr :=
  match funct3Of w with
  | 0b000#3 => .ok (.ecall (rdOf w) (rs1Of w) (immIOf w))
  | 0b001#3 =>
    if immIOf w = exitCsr then .ok (.csrrwExit (rdOf w) (rs1Of w)) else .ok (.csrrw (rdOf w) (rs1Of w) (immIOf w))
  | 0b010#3 => .ok (.csrrs (rdOf w) (rs1Of w) (immIOf w))
  | 0b011#3 => .ok (.csrrc (rdOf w) (rs1Of w) (immIOf w))
  | 0b101#3 => .ok (.csrrwi (rdOf w) (rs1Of w) (immIOf w))
  | 0b110#3 => .ok (.csrrsi (rdOf w) (rs1Of w) (immIOf w))
  | 0b111#3 => .ok (.csrrci (rdOf w) (rs1Of w) (immIOf w))
  | _ => .error .unsupportedFunct3

/-- The decoder: the opcode selects a class (R74), the class's selectors the instruction (R75 to R82).
It depends on the word and the parameter `EXIT_CSR` alone (R85). -/
def decode (exitCsr : BitVec 12) (w : Word) : Except DecodeError Instr :=
  match opcodeClass (opcodeOf w) with
  | none => .error .unsupportedOpcode
  | some .lui => .ok (.lui (rdOf w) (immUOf w))
  | some .auipc => .ok (.auipc (rdOf w) (immUOf w))
  | some .jal => .ok (.jal (rdOf w) (immJOf w))
  | some .jalr => decodeJalr w
  | some .branch => decodeBranch w
  | some .load => decodeLoad w
  | some .store => decodeStore w
  | some .imm => decodeImm w
  | some .op => decodeOp w
  | some .miscFence => decodeMiscFence w
  | some .system => decodeSystem exitCsr w

/-- A word from the four bytes that hold it, the first at the lowest address (20_memory.md R43, R46). -/
def wordOfBytes (b0 b1 b2 b3 : Byte) : Word := b3 ++ b2 ++ b1 ++ b0

/-- The four bytes of a word as the hardware stores it (20_memory.md R44, R46). -/
def bytesOfWord (w : Word) : List Byte :=
  [w.extractLsb' 0 8, w.extractLsb' 8 8, w.extractLsb' 16 8, w.extractLsb' 24 8]

/-- The decoder on the bytes at an address: four bytes make an instruction word, no other length is one (30_encoding.md R60). -/
def decodeBytes (exitCsr : BitVec 12) : List Byte → Except DecodeError Instr
  | [b0, b1, b2, b3] => decode exitCsr (wordOfBytes b0 b1 b2 b3)
  | _ => .error .unsupportedOpcode

/-- The word whose bits are those of `w` below `nbits`, and 0 above. -/
def tableWord (nbits w : Nat) : Word := BitVec.ofNat 32 (w % 2 ^ nbits)

/-- The host's question of the opcode table: what the decoder reads from the bytes of an instruction, with `EXIT_CSR` as `State.reset` has it. -/
def decodeTableWord (nbits w : Nat) : Option Instr :=
  match decodeBytes Machine.referenceConfig.exitCsr (bytesOfWord (tableWord nbits w)) with
  | .ok i => some i
  | .error _ => none

/-! ### The encoder, from the six formats (30_encoding.md R72) -/

def encodeR (f7 : BitVec 7) (rs2 rs1 : Reg) (f3 : BitVec 3) (rd : Reg) (op : BitVec 7) : Word :=
  f7 ++ rs2 ++ rs1 ++ f3 ++ rd ++ op

def encodeI (imm : BitVec 12) (rs1 : Reg) (f3 : BitVec 3) (rd : Reg) (op : BitVec 7) : Word :=
  imm ++ rs1 ++ f3 ++ rd ++ op

def encodeS (imm : BitVec 12) (rs2 rs1 : Reg) (f3 : BitVec 3) (op : BitVec 7) : Word :=
  imm.extractLsb' 5 7 ++ rs2 ++ rs1 ++ f3 ++ imm.extractLsb' 0 5 ++ op

def encodeB (imm : BitVec 13) (rs2 rs1 : Reg) (f3 : BitVec 3) (op : BitVec 7) : Word :=
  imm.extractLsb' 12 1 ++ imm.extractLsb' 5 6 ++ rs2 ++ rs1 ++ f3 ++ imm.extractLsb' 1 4 ++ imm.extractLsb' 11 1 ++ op

def encodeU (imm : BitVec 20) (rd : Reg) (op : BitVec 7) : Word :=
  imm ++ rd ++ op

def encodeJ (imm : BitVec 21) (rd : Reg) (op : BitVec 7) : Word :=
  imm.extractLsb' 20 1 ++ imm.extractLsb' 1 10 ++ imm.extractLsb' 11 1 ++ imm.extractLsb' 12 8 ++ rd ++ op

/-- The word of an instruction, with `EXIT_CSR` in the selector of the exit sentinel (R74 to R82). -/
def encode (exitCsr : BitVec 12) : Instr → Word
  | .add rd rs1 rs2 => encodeR 0b0000000#7 rs2 rs1 0b000#3 rd 0b0110011#7
  | .sub rd rs1 rs2 => encodeR 0b0100000#7 rs2 rs1 0b000#3 rd 0b0110011#7
  | .sll rd rs1 rs2 => encodeR 0b0000000#7 rs2 rs1 0b001#3 rd 0b0110011#7
  | .slt rd rs1 rs2 => encodeR 0b0000000#7 rs2 rs1 0b010#3 rd 0b0110011#7
  | .sltu rd rs1 rs2 => encodeR 0b0000000#7 rs2 rs1 0b011#3 rd 0b0110011#7
  | .xor rd rs1 rs2 => encodeR 0b0000000#7 rs2 rs1 0b100#3 rd 0b0110011#7
  | .srl rd rs1 rs2 => encodeR 0b0000000#7 rs2 rs1 0b101#3 rd 0b0110011#7
  | .sra rd rs1 rs2 => encodeR 0b0100000#7 rs2 rs1 0b101#3 rd 0b0110011#7
  | .or rd rs1 rs2 => encodeR 0b0000000#7 rs2 rs1 0b110#3 rd 0b0110011#7
  | .and rd rs1 rs2 => encodeR 0b0000000#7 rs2 rs1 0b111#3 rd 0b0110011#7
  | .addi rd rs1 imm => encodeI imm rs1 0b000#3 rd 0b0010011#7
  | .slti rd rs1 imm => encodeI imm rs1 0b010#3 rd 0b0010011#7
  | .sltiu rd rs1 imm => encodeI imm rs1 0b011#3 rd 0b0010011#7
  | .xori rd rs1 imm => encodeI imm rs1 0b100#3 rd 0b0010011#7
  | .ori rd rs1 imm => encodeI imm rs1 0b110#3 rd 0b0010011#7
  | .andi rd rs1 imm => encodeI imm rs1 0b111#3 rd 0b0010011#7
  | .slli rd rs1 shamt => encodeR 0b0000000#7 shamt rs1 0b001#3 rd 0b0010011#7
  | .srli rd rs1 shamt => encodeR 0b0000000#7 shamt rs1 0b101#3 rd 0b0010011#7
  | .srai rd rs1 shamt => encodeR 0b0100000#7 shamt rs1 0b101#3 rd 0b0010011#7
  | .lui rd imm => encodeU imm rd 0b0110111#7
  | .auipc rd imm => encodeU imm rd 0b0010111#7
  | .jal rd imm => encodeJ imm rd 0b1101111#7
  | .jalr rd rs1 imm => encodeI imm rs1 0b000#3 rd 0b1100111#7
  | .beq rs1 rs2 imm => encodeB imm rs2 rs1 0b000#3 0b1100011#7
  | .bne rs1 rs2 imm => encodeB imm rs2 rs1 0b001#3 0b1100011#7
  | .blt rs1 rs2 imm => encodeB imm rs2 rs1 0b100#3 0b1100011#7
  | .bge rs1 rs2 imm => encodeB imm rs2 rs1 0b101#3 0b1100011#7
  | .bltu rs1 rs2 imm => encodeB imm rs2 rs1 0b110#3 0b1100011#7
  | .bgeu rs1 rs2 imm => encodeB imm rs2 rs1 0b111#3 0b1100011#7
  | .lb rd rs1 imm => encodeI imm rs1 0b000#3 rd 0b0000011#7
  | .lh rd rs1 imm => encodeI imm rs1 0b001#3 rd 0b0000011#7
  | .lw rd rs1 imm => encodeI imm rs1 0b010#3 rd 0b0000011#7
  | .lbu rd rs1 imm => encodeI imm rs1 0b100#3 rd 0b0000011#7
  | .lhu rd rs1 imm => encodeI imm rs1 0b101#3 rd 0b0000011#7
  | .sb rs1 rs2 imm => encodeS imm rs2 rs1 0b000#3 0b0100011#7
  | .sh rs1 rs2 imm => encodeS imm rs2 rs1 0b001#3 0b0100011#7
  | .sw rs1 rs2 imm => encodeS imm rs2 rs1 0b010#3 0b0100011#7
  | .fence rd rs1 imm => encodeI imm rs1 0b000#3 rd 0b0001111#7
  | .fenceI rd rs1 imm => encodeI imm rs1 0b001#3 rd 0b0001111#7
  | .ecall rd rs1 imm => encodeI imm rs1 0b000#3 rd 0b1110011#7
  | .csrrwExit rd rs1 => encodeI exitCsr rs1 0b001#3 rd 0b1110011#7
  | .csrrw rd rs1 csr => encodeI csr rs1 0b001#3 rd 0b1110011#7
  | .csrrs rd rs1 csr => encodeI csr rs1 0b010#3 rd 0b1110011#7
  | .csrrc rd rs1 csr => encodeI csr rs1 0b011#3 rd 0b1110011#7
  | .csrrwi rd uimm csr => encodeI csr uimm 0b101#3 rd 0b1110011#7
  | .csrrsi rd uimm csr => encodeI csr uimm 0b110#3 rd 0b1110011#7
  | .csrrci rd uimm csr => encodeI csr uimm 0b111#3 rd 0b1110011#7

end Sys2Proof
end

