-- ==== Sys2Proof/Machine/State.lean ====
section
/-! DEFINITION. The state of the core (10_state.md R33): x1 to x31, the pc, the memory bytes, the execution status and the fault record;
beside them the open parameters, which no step changes. -/

namespace Sys2Proof.Machine

/-- The access widths of the memory contract (20_memory.md R44, R48). -/
inductive Width where
  | byte | half | word
  deriving DecidableEq, Repr

/-- The four fault kinds (60_exceptions.md R200). -/
inductive FaultKind where
  | outOfBounds | unsupportedOpcode | unsupportedFunct3 | testFailure
  deriving DecidableEq, Repr

/-- A fault kind with the detail the record keeps for it (10_state.md R32). -/
inductive FaultCause where
  /-- A fetch, load or store outside the memory: the first byte address and the length of the rejected access (60_exceptions.md R201). -/
  | outOfBounds (addr : Word) (len : Width)
  /-- An opcode outside the eleven classes (60_exceptions.md R202). -/
  | unsupportedOpcode
  /-- A recognised opcode with an unimplemented funct3/funct7 (60_exceptions.md R203). -/
  | unsupportedFunct3
  /-- ECALL with `unsigned(x3) > 1`: the value of x3 (60_exceptions.md R204). -/
  | testFailure (statusValue : Word)
  deriving DecidableEq, Repr

/-- The fault record (10_state.md R32): kind and detail, the pc of the faulting step, the fetched word (none for a fetch fault). -/
structure FaultRecord where
  cause : FaultCause
  faultPc : Word
  word : Option Word
  deriving DecidableEq, Repr

/-- The execution status (10_state.md R31). The record "exists only in the `Faulted` status" (R32), so it is that status's own data. -/
inductive Status where
  | running
  | halted
  | faulted (record : FaultRecord)
  deriving DecidableEq, Repr

/-- The memory (20_memory.md R40): address and byte pairs in the canonical form `Memory.wf`; the keys are whole addresses. -/
abbrev Memory := List Host.Cell

/-- The canonical form: addresses strictly rising, and no entry equal to what an unlisted address reads as (0x00, 10_state.md R34). -/
abbrev Memory.wf (m : Memory) : Prop := m.Pairwise (fun c d => c.1 < d.1) ∧ ∀ c ∈ m, c.2 ≠ 0#8

/-- The state of the machine. -/
structure State where
  /-- x1 to x31, at indices 0 to 30; x0 has no storage (10_state.md R21). -/
  regs : Vector Word 31
  /-- The program counter, register-file index 32 (10_state.md R24). -/
  pc : Word
  mem : Memory
  status : Status
  /-- The open parameters (00_scope.md R6), not state of the spec (10_state.md R33); log entry 1. -/
  config : Config
  deriving DecidableEq, Repr

/-- Where the machine has no step (40_cycle.md R90). The spec's four fault kinds are no constructors here: a step that raises one goes to a
NEXT state, whose status is `Faulted` (40_cycle.md R95). -/
inductive Fault where
  /-- Raised by `step` in the status `Halted`: "No step exists" (92_eei_decisions.md D16, 93_implementation_defined.md row 20: stuck).
  Safe: the machine stops where the spec gives no transition. -/
  | noStepWhenHalted
  /-- Raised by `step` in the status `Faulted`, for the same reason. Safe. -/
  | noStepWhenFaulted
  deriving DecidableEq, Repr

/-- Why a step has no meaning. -/
inductive Refusal where
  /-- Raised by an arm of `exec` for an instruction that has no meaning yet. Safe: the machine stops. No arm raises it now. -/
  | notModelled (mnemonic : String)
  deriving DecidableEq, Repr

/-- The machine right after reset, for the parameters `c` (10_state.md R34, 70_reset_and_hazards.md R220). -/
def State.resetWith (c : Config) : State where
  regs := Vector.replicate 31 0#32
  pc := 0#32
  mem := []
  status := .running
  config := c

/-- The machine right after reset; the parameters are `referenceConfig` (DESIGN CHOICE, log entry 1), all else is R34. -/
def State.reset : State := State.resetWith referenceConfig

end Sys2Proof.Machine
end

