-- ==== Sys2Proof/Machine/Operands.lean ====
section
/-! DEFINITION. Operand forms: sign and zero extension, the five immediates as 32-bit operands, shift amounts, the effective address,
the ALU operations (00_scope.md R8, 30_encoding.md R67 to R71, 41_alu.md R110 to R115, 43_load_store.md R160). -/

namespace Sys2Proof.Machine

/-- `sext_32` (00_scope.md R8, 90_conflicts.md C3): the one sign extension that serves every format. -/
def sext32 {w : Nat} (v : BitVec w) : Word := v.signExtend 32

/-- `zext_32` (00_scope.md R8). -/
def zext32 {w : Nat} (v : BitVec w) : Word := v.setWidth 32

/-- `imm_i` of the operand field (30_encoding.md R67). -/
def immI (imm : BitVec 12) : Word := sext32 imm

/-- `imm_s` (30_encoding.md R68). -/
def immS (imm : BitVec 12) : Word := sext32 imm

/-- `imm_b` (30_encoding.md R69). -/
def immB (imm : BitVec 13) : Word := sext32 imm

/-- `imm_u`: the field in bits 31:12, zeros below (30_encoding.md R70). -/
def immU (imm : BitVec 20) : Word := imm ++ 0#12

/-- `imm_j` (30_encoding.md R71). -/
def immJ (imm : BitVec 21) : Word := sext32 imm

/-- Bytes of an access (20_memory.md R44, R48). -/
def Width.bytes : Width → Nat
  | .byte => 1
  | .half => 2
  | .word => 4

/-- The effective address of a load or store, modulo 2^32: base register value plus 12-bit signed offset (43_load_store.md R160). -/
def effectiveAddress (base offset : Word) : Word := base + offset

/-- What a load keeps of the four bytes it reads, extended to 32 bits (43_load_store.md R161, 20_memory.md R45). -/
def loadExtend (n : Width) (signed : Bool) (raw : Word) : Word :=
  match n, signed with
  | .byte, true => sext32 (raw.extractLsb' 0 8)
  | .byte, false => zext32 (raw.extractLsb' 0 8)
  | .half, true => sext32 (raw.extractLsb' 0 16)
  | .half, false => zext32 (raw.extractLsb' 0 16)
  | .word, _ => raw

/-- The bytes a store of width `n` writes, the lowest address first (20_memory.md R44, 43_load_store.md R167). -/
def storeBytes (n : Width) (v : Word) : List Byte := (bytesOfWord v).take n.bytes

/-- The ALU's operations, each named as the document names it (41_alu.md R110). -/
inductive AluOp where
  | addSub | sll | slt | sltu | xor | srlSra | or | and
  deriving DecidableEq, Repr

/-- The operation a funct3 selects: all eight values have one (41_alu.md R110, R116). -/
def aluOpOf (f3 : BitVec 3) : AluOp :=
  match f3 with
  | 0b000#3 => .addSub
  | 0b001#3 => .sll
  | 0b010#3 => .slt
  | 0b011#3 => .sltu
  | 0b100#3 => .xor
  | 0b101#3 => .srlSra
  | 0b110#3 => .or
  | _ => .and

/-- A shift amount: the low five bits of the right operand (41_alu.md R112). -/
def shiftAmount (y : Word) : Nat := (y.extractLsb' 0 5).toNat

/-- 1 or 0 (41_alu.md R113, R114). -/
def boolWord (b : Bool) : Word := if b then 1#32 else 0#32

/-- The ALU (41_alu.md R110 to R115): `alt` selects SUB over ADD and SRA over SRL, and is ignored by every other operation. -/
def aluApply (op : AluOp) (x y : Word) (alt : Bool) : Word :=
  match op with
  | .addSub => if alt then x - y else x + y
  | .sll => x <<< shiftAmount y
  | .slt => boolWord (decide (x.toInt < y.toInt))
  | .sltu => boolWord (decide (x.toNat < y.toNat))
  | .xor => x ^^^ y
  | .srlSra => if alt then x.sshiftRight (shiftAmount y) else x >>> shiftAmount y
  | .or => x ||| y
  | .and => x &&& y

/-- The right operand of an IMM shift: `imm_i`, whose low five bits are the shift amount (30_encoding.md R72, 41_alu.md R134 to R136). -/
def immShift (f7 : BitVec 7) (shamt : BitVec 5) : Word := immI (f7 ++ shamt)

end Sys2Proof.Machine
end

