-- ==== Sys2Proof/Machine/Ops.lean ====
section
/-! DEFINITION. The named operations every instruction is made of: registers, memory, raising a fault, halting, and the write-back of an
execute stage's effect (10_state.md R20 to R24, 20_memory.md R41 to R45, 40_cycle.md R91 to R100). -/

namespace Sys2Proof.Machine

/-! ### Registers -/

/-- Read of general register `r`; x0 is hard-wired to zero (10_state.md R21). -/
def State.x (s : State) (r : Reg) : Word :=
  if r = 0#5 then 0#32 else s.regs[r.toNat - 1]'(by have := r.isLt; omega)

/-- Write of general register `r`; a write to x0 is discarded (10_state.md R22). -/
def State.setX (s : State) (r : Reg) (v : Word) : State :=
  if r = 0#5 then s else { s with regs := s.regs.set (r.toNat - 1) v (by have := r.isLt; omega) }

/-- Write of the program counter (10_state.md R24). -/
def State.setPc (s : State) (t : Word) : State := { s with pc := t }

/-- The address after the current instruction, modulo 2^32 (10_state.md R24, 40_cycle.md R99). -/
def State.nextPc (s : State) : Word := s.pc + 4#32

/-- Advancing past the current instruction (40_cycle.md R98). -/
def State.advance (s : State) : State := s.setPc s.nextPc

/-! ### Memory -/

/-- What an address nothing has written reads as: memory is zero-filled at reset (10_state.md R34, 20_memory.md R52). -/
def unlistedByte : Byte := 0#8

/-- The byte at an address. -/
def Memory.read : Memory → Nat → Byte
  | [], _ => unlistedByte
  | c :: m, a => if c.1 = a then c.2 else Memory.read m a

/-- The byte at an address becomes `b`; the canonical form is kept. -/
def Memory.write : Memory → Nat → Byte → Memory
  | [], a, b => if b = unlistedByte then [] else [(a, b)]
  | c :: m, a, b =>
    if a < c.1 then (if b = unlistedByte then c :: m else (a, b) :: c :: m)
    else if a = c.1 then (if b = unlistedByte then m else (a, b) :: m)
    else c :: Memory.write m a b

/-- Bytes at consecutive addresses from `a` upward. -/
def Memory.writeBytes : Memory → Nat → List Byte → Memory
  | m, _, [] => m
  | m, a, b :: bs => Memory.writeBytes (Memory.write m a b) (a + 1) bs

/-- `in_bounds(a, n)`: the range is not wrapped (20_memory.md R41). -/
abbrev inBounds (c : Config) (a : Word) (n : Nat) : Prop :=
  memBase ≤ a.toNat ∧ a.toNat + n ≤ memBase + c.memSize

/-- The byte a state's memory holds at an address. -/
def State.byte (s : State) (a : Nat) : Byte := s.mem.read a

/-- `MemRead32(a)`: four bytes, little-endian, or none where it is out of bounds (20_memory.md R43). -/
def State.read32 (s : State) (a : Word) : Option Word :=
  if inBounds s.config a 4 then
    some (wordOfBytes (s.byte a.toNat) (s.byte (a.toNat + 1)) (s.byte (a.toNat + 2)) (s.byte (a.toNat + 3)))
  else none

/-- The Memory `write` contract for a byte list of any length: all of it, or none where it is out of bounds (20_memory.md R42, R44). -/
def State.writeAll (s : State) (a : Word) (bytes : List Byte) : Option State :=
  if inBounds s.config a bytes.length then some { s with mem := s.mem.writeBytes a.toNat bytes } else none

/-- `MemWrite(a, n, v)`: the low `8n` bits of `v`, little-endian (20_memory.md R44). -/
def State.write (s : State) (a : Word) (n : Width) (v : Word) : Option State := s.writeAll a (storeBytes n v)

/-! ### Ending a run -/

/-- Raising a fault: nothing changes but the status, which holds the record with the pc of this step (40_cycle.md R95, 10_state.md R32). -/
def State.raise (s : State) (word : Option Word) (cause : FaultCause) : State :=
  { s with status := .faulted { cause := cause, faultPc := s.pc, word := word } }

/-- Halting: nothing changes but the status; the pc stays at the halting instruction (40_cycle.md R96). -/
def State.halt (s : State) : State := { s with status := .halted }

/-- The kind of a fault (60_exceptions.md R200). -/
def FaultCause.kind : FaultCause → FaultKind
  | .outOfBounds _ _ => .outOfBounds
  | .unsupportedOpcode => .unsupportedOpcode
  | .unsupportedFunct3 => .unsupportedFunct3
  | .testFailure _ => .testFailure

/-- The spec's own ordinal of a fault kind (60_exceptions.md R200, 92_eei_decisions.md D18). -/
def FaultKind.code : FaultKind → Nat
  | .outOfBounds => 0
  | .unsupportedOpcode => 1
  | .unsupportedFunct3 => 2
  | .testFailure => 3

/-- The fault record, none outside `Faulted` (10_state.md R32). -/
def State.faultRecord (s : State) : Option FaultRecord :=
  match s.status with
  | .faulted r => some r
  | .running => none
  | .halted => none

/-! ### The stages of a step (40_cycle.md R91 to R98) -/

/-- Fetch: `read32` at the pc, whatever its alignment (R91, 10_state.md R25). -/
def fetch (s : State) : Option Word := s.read32 s.pc

/-- A fetch out of bounds: no word, the four bytes at the pc (R91). -/
def fetchFault (s : State) : State := s.raise none (.outOfBounds s.pc .word)

/-- The fault a word raises that is no instruction (R92, 60_exceptions.md R202, R203). -/
def decodeFault (s : State) (w : Word) (e : DecodeError) : State :=
  match e with
  | .unsupportedOpcode => s.raise (some w) .unsupportedOpcode
  | .unsupportedFunct3 => s.raise (some w) .unsupportedFunct3

/-- What the execute stage yields (R93), with the registers an effect writes named in it. UnsupportedFunct3, the other fault of that stage,
is raised by `decodeFault` before any effect (log entry 4). -/
inductive Effect where
  | writeRd (rd : Reg) (v : Word)
  | jump (rd : Reg) (t : Word)
  | branch (taken : Bool) (t : Word)
  | load (rd : Reg) (a : Word) (n : Width) (signed : Bool)
  | store (a : Word) (n : Width) (v : Word)
  | next
  | halt
  | fault (cause : FaultCause)
  deriving DecidableEq, Repr

/-- Memory access and write-back of an effect (R95 to R98, R100). `w` is the fetched word, which the record of a fault keeps. -/
def retire (w : Word) (e : Effect) (s : State) : State :=
  match e with
  | .writeRd rd v => (s.setX rd v).advance
  | .jump rd t => (s.setX rd s.nextPc).setPc t
  | .branch taken t => s.setPc (if taken then t else s.nextPc)
  | .load rd a n signed =>
    match s.read32 a with
    | some raw => (s.setX rd (loadExtend n signed raw)).advance
    | none => s.raise (some w) (.outOfBounds a .word)
  | .store a n v =>
    match s.write a n v with
    | some t => t.advance
    | none => s.raise (some w) (.outOfBounds a n)
  | .next => s.advance
  | .halt => s.halt
  | .fault cause => s.raise (some w) cause

/-- The rest of the step after the execute stage of `i` has yielded `e`: always a next state. The word is the instruction's own encoding,
which is the word it was decoded from (log entry 5). -/
def complete (i : Instr) (e : Effect) (s : State) : Host.Outcome State Fault Refusal :=
  .next (retire (encode s.config.exitCsr i) e s)

end Sys2Proof.Machine
end

