-- ==== Sys2Proof/Machine/Alu.lean ====
section
/-! DEFINITION. The ALU instructions: OP, IMM and the upper immediates (41_alu.md R118 to R138). Each is one use of the shared ALU
and a register write-back. -/

namespace Sys2Proof.Machine

/-- ADD: `x[rs1] + x[rs2]`, wrapping (R118). -/
def execAdd (rd rs1 rs2 : Reg) (s : State) : Host.Outcome State Fault Refusal :=
  complete (.add rd rs1 rs2) (.writeRd rd (aluApply .addSub (s.x rs1) (s.x rs2) false)) s

/-- SUB: `x[rs1] - x[rs2]`, wrapping (R119). -/
def execSub (rd rs1 rs2 : Reg) (s : State) : Host.Outcome State Fault Refusal :=
  complete (.sub rd rs1 rs2) (.writeRd rd (aluApply .addSub (s.x rs1) (s.x rs2) true)) s

/-- SLL: left shift by `x[rs2][4:0]` (R120). -/
def execSll (rd rs1 rs2 : Reg) (s : State) : Host.Outcome State Fault Refusal :=
  complete (.sll rd rs1 rs2) (.writeRd rd (aluApply .sll (s.x rs1) (s.x rs2) false)) s

/-- SLT: 1 if signed less, else 0 (R121). -/
def execSlt (rd rs1 rs2 : Reg) (s : State) : Host.Outcome State Fault Refusal :=
  complete (.slt rd rs1 rs2) (.writeRd rd (aluApply .slt (s.x rs1) (s.x rs2) false)) s

/-- SLTU: 1 if unsigned less, else 0 (R122). -/
def execSltu (rd rs1 rs2 : Reg) (s : State) : Host.Outcome State Fault Refusal :=
  complete (.sltu rd rs1 rs2) (.writeRd rd (aluApply .sltu (s.x rs1) (s.x rs2) false)) s

/-- XOR (R123). -/
def execXor (rd rs1 rs2 : Reg) (s : State) : Host.Outcome State Fault Refusal :=
  complete (.xor rd rs1 rs2) (.writeRd rd (aluApply .xor (s.x rs1) (s.x rs2) false)) s

/-- SRL: logical right shift by `x[rs2][4:0]` (R124). -/
def execSrl (rd rs1 rs2 : Reg) (s : State) : Host.Outcome State Fault Refusal :=
  complete (.srl rd rs1 rs2) (.writeRd rd (aluApply .srlSra (s.x rs1) (s.x rs2) false)) s

/-- SRA: arithmetic right shift by `x[rs2][4:0]` (R125). -/
def execSra (rd rs1 rs2 : Reg) (s : State) : Host.Outcome State Fault Refusal :=
  complete (.sra rd rs1 rs2) (.writeRd rd (aluApply .srlSra (s.x rs1) (s.x rs2) true)) s

/-- OR (R126). -/
def execOr (rd rs1 rs2 : Reg) (s : State) : Host.Outcome State Fault Refusal :=
  complete (.or rd rs1 rs2) (.writeRd rd (aluApply .or (s.x rs1) (s.x rs2) false)) s

/-- AND (R127). -/
def execAnd (rd rs1 rs2 : Reg) (s : State) : Host.Outcome State Fault Refusal :=
  complete (.and rd rs1 rs2) (.writeRd rd (aluApply .and (s.x rs1) (s.x rs2) false)) s

/-- ADDI: `x[rs1] + imm_i`; never a subtraction, whatever bit 30 is (R128). -/
def execAddi (rd rs1 : Reg) (imm : BitVec 12) (s : State) : Host.Outcome State Fault Refusal :=
  complete (.addi rd rs1 imm) (.writeRd rd (aluApply .addSub (s.x rs1) (immI imm) false)) s

/-- SLTI: signed comparison with `imm_i` (R129). -/
def execSlti (rd rs1 : Reg) (imm : BitVec 12) (s : State) : Host.Outcome State Fault Refusal :=
  complete (.slti rd rs1 imm) (.writeRd rd (aluApply .slt (s.x rs1) (immI imm) false)) s

/-- SLTIU: unsigned comparison with the sign-extended `imm_i` (R130). -/
def execSltiu (rd rs1 : Reg) (imm : BitVec 12) (s : State) : Host.Outcome State Fault Refusal :=
  complete (.sltiu rd rs1 imm) (.writeRd rd (aluApply .sltu (s.x rs1) (immI imm) false)) s

/-- XORI (R131). -/
def execXori (rd rs1 : Reg) (imm : BitVec 12) (s : State) : Host.Outcome State Fault Refusal :=
  complete (.xori rd rs1 imm) (.writeRd rd (aluApply .xor (s.x rs1) (immI imm) false)) s

/-- ORI (R132). -/
def execOri (rd rs1 : Reg) (imm : BitVec 12) (s : State) : Host.Outcome State Fault Refusal :=
  complete (.ori rd rs1 imm) (.writeRd rd (aluApply .or (s.x rs1) (immI imm) false)) s

/-- ANDI (R133). -/
def execAndi (rd rs1 : Reg) (imm : BitVec 12) (s : State) : Host.Outcome State Fault Refusal :=
  complete (.andi rd rs1 imm) (.writeRd rd (aluApply .and (s.x rs1) (immI imm) false)) s

/-- SLLI: the shift amount is `imm_i[4:0]` (R134). -/
def execSlli (rd rs1 : Reg) (shamt : BitVec 5) (s : State) : Host.Outcome State Fault Refusal :=
  complete (.slli rd rs1 shamt) (.writeRd rd (aluApply .sll (s.x rs1) (immShift 0b0000000#7 shamt) false)) s

/-- SRLI: the shift amount is `imm_i[4:0]` (R135). -/
def execSrli (rd rs1 : Reg) (shamt : BitVec 5) (s : State) : Host.Outcome State Fault Refusal :=
  complete (.srli rd rs1 shamt) (.writeRd rd (aluApply .srlSra (s.x rs1) (immShift 0b0000000#7 shamt) false)) s

/-- SRAI: the shift amount is `imm_i[4:0]` (R136). -/
def execSrai (rd rs1 : Reg) (shamt : BitVec 5) (s : State) : Host.Outcome State Fault Refusal :=
  complete (.srai rd rs1 shamt) (.writeRd rd (aluApply .srlSra (s.x rs1) (immShift 0b0100000#7 shamt) true)) s

/-- LUI: `imm_u` to rd (R137). -/
def execLui (rd : Reg) (imm : BitVec 20) (s : State) : Host.Outcome State Fault Refusal :=
  complete (.lui rd imm) (.writeRd rd (immU imm)) s

/-- AUIPC: the address of this instruction plus `imm_u` (R138). -/
def execAuipc (rd : Reg) (imm : BitVec 20) (s : State) : Host.Outcome State Fault Refusal :=
  complete (.auipc rd imm) (.writeRd rd (s.pc + immU imm)) s

end Sys2Proof.Machine
end

