-- ==== Sys2Proof/Machine/Flags.lean ====
section
/-! DEFINITION. The conditions. The core has NO status flags or condition codes (10_state.md R28): no instruction sets one as a side effect,
and branches compare registers directly, through the branch unit's `evaluate` (42_control.md R140). -/

namespace Sys2Proof.Machine

/-- The six branch conditions (42_control.md R140). -/
inductive Condition where
  | eq | ne | lt | ge | ltu | geu
  deriving DecidableEq, Repr

/-- The condition a BRANCH funct3 selects; none for 010 and 011 (42_control.md R140, 30_encoding.md R77). -/
def conditionOf (f3 : BitVec 3) : Option Condition :=
  match f3 with
  | 0b000#3 => some .eq
  | 0b001#3 => some .ne
  | 0b100#3 => some .lt
  | 0b101#3 => some .ge
  | 0b110#3 => some .ltu
  | 0b111#3 => some .geu
  | _ => none

/-- `evaluate(funct3, lhs, rhs)`: signed comparisons read two's complement, unsigned ones natural numbers (42_control.md R140). -/
def evaluate (c : Condition) (lhs rhs : Word) : Bool :=
  match c with
  | .eq => decide (lhs = rhs)
  | .ne => decide (lhs ≠ rhs)
  | .lt => decide (lhs.toInt < rhs.toInt)
  | .ge => decide (lhs.toInt ≥ rhs.toInt)
  | .ltu => decide (lhs.toNat < rhs.toNat)
  | .geu => decide (lhs.toNat ≥ rhs.toNat)

end Sys2Proof.Machine
end

