-- ==== Sys2Proof/Machine/Control.lean ====
section
/-! DEFINITION. The control transfers (42_control.md R142 to R149). No target is checked for alignment and none is rounded (R143, R150). -/

namespace Sys2Proof.Machine

/-- JAL: link to rd, target `pc + imm_j` (R142). -/
def execJal (rd : Reg) (imm : BitVec 21) (s : State) : Host.Outcome State Fault Refusal :=
  complete (.jal rd imm) (.jump rd (s.pc + immJ imm)) s

/-- JALR: link to rd, target `x[rs1] + imm_i` from the old rs1; bit 0 is not cleared (R143). -/
def execJalr (rd rs1 : Reg) (imm : BitVec 12) (s : State) : Host.Outcome State Fault Refusal :=
  complete (.jalr rd rs1 imm) (.jump rd (s.x rs1 + immI imm)) s

/-- BEQ (R144). -/
def execBeq (rs1 rs2 : Reg) (imm : BitVec 13) (s : State) : Host.Outcome State Fault Refusal :=
  complete (.beq rs1 rs2 imm) (.branch (evaluate .eq (s.x rs1) (s.x rs2)) (s.pc + immB imm)) s

/-- BNE (R145). -/
def execBne (rs1 rs2 : Reg) (imm : BitVec 13) (s : State) : Host.Outcome State Fault Refusal :=
  complete (.bne rs1 rs2 imm) (.branch (evaluate .ne (s.x rs1) (s.x rs2)) (s.pc + immB imm)) s

/-- BLT (R146). -/
def execBlt (rs1 rs2 : Reg) (imm : BitVec 13) (s : State) : Host.Outcome State Fault Refusal :=
  complete (.blt rs1 rs2 imm) (.branch (evaluate .lt (s.x rs1) (s.x rs2)) (s.pc + immB imm)) s

/-- BGE (R147). -/
def execBge (rs1 rs2 : Reg) (imm : BitVec 13) (s : State) : Host.Outcome State Fault Refusal :=
  complete (.bge rs1 rs2 imm) (.branch (evaluate .ge (s.x rs1) (s.x rs2)) (s.pc + immB imm)) s

/-- BLTU (R148). -/
def execBltu (rs1 rs2 : Reg) (imm : BitVec 13) (s : State) : Host.Outcome State Fault Refusal :=
  complete (.bltu rs1 rs2 imm) (.branch (evaluate .ltu (s.x rs1) (s.x rs2)) (s.pc + immB imm)) s

/-- BGEU (R149). -/
def execBgeu (rs1 rs2 : Reg) (imm : BitVec 13) (s : State) : Host.Outcome State Fault Refusal :=
  complete (.bgeu rs1 rs2 imm) (.branch (evaluate .geu (s.x rs1) (s.x rs2)) (s.pc + immB imm)) s

end Sys2Proof.Machine
end

