-- ==== Sys2Proof/Machine/LoadStore.lean ====
section
/-! DEFINITION. Loads and stores (43_load_store.md R162 to R166, R168 to R170). A load of any width is checked over four bytes
(20_memory.md R45); a store over its own width. -/

namespace Sys2Proof.Machine

/-- LB (R162). -/
def execLb (rd rs1 : Reg) (imm : BitVec 12) (s : State) : Host.Outcome State Fault Refusal :=
  complete (.lb rd rs1 imm) (.load rd (effectiveAddress (s.x rs1) (immI imm)) .byte true) s

/-- LH (R163). -/
def execLh (rd rs1 : Reg) (imm : BitVec 12) (s : State) : Host.Outcome State Fault Refusal :=
  complete (.lh rd rs1 imm) (.load rd (effectiveAddress (s.x rs1) (immI imm)) .half true) s

/-- LW (R164). -/
def execLw (rd rs1 : Reg) (imm : BitVec 12) (s : State) : Host.Outcome State Fault Refusal :=
  complete (.lw rd rs1 imm) (.load rd (effectiveAddress (s.x rs1) (immI imm)) .word true) s

/-- LBU (R165). -/
def execLbu (rd rs1 : Reg) (imm : BitVec 12) (s : State) : Host.Outcome State Fault Refusal :=
  complete (.lbu rd rs1 imm) (.load rd (effectiveAddress (s.x rs1) (immI imm)) .byte false) s

/-- LHU (R166). -/
def execLhu (rd rs1 : Reg) (imm : BitVec 12) (s : State) : Host.Outcome State Fault Refusal :=
  complete (.lhu rd rs1 imm) (.load rd (effectiveAddress (s.x rs1) (immI imm)) .half false) s

/-- SB (R168). -/
def execSb (rs1 rs2 : Reg) (imm : BitVec 12) (s : State) : Host.Outcome State Fault Refusal :=
  complete (.sb rs1 rs2 imm) (.store (effectiveAddress (s.x rs1) (immS imm)) .byte (s.x rs2)) s

/-- SH (R169). -/
def execSh (rs1 rs2 : Reg) (imm : BitVec 12) (s : State) : Host.Outcome State Fault Refusal :=
  complete (.sh rs1 rs2 imm) (.store (effectiveAddress (s.x rs1) (immS imm)) .half (s.x rs2)) s

/-- SW (R170). -/
def execSw (rs1 rs2 : Reg) (imm : BitVec 12) (s : State) : Host.Outcome State Fault Refusal :=
  complete (.sw rs1 rs2 imm) (.store (effectiveAddress (s.x rs1) (immS imm)) .word (s.x rs2)) s

end Sys2Proof.Machine
end

