-- ==== Sys2Proof/Machine/System.lean ====
section
/-! DEFINITION. MISC-FENCE and SYSTEM (44_system.md R181 to R192): fences and CSR instructions advance the pc and change nothing else;
ECALL and the exit sentinel end the run. -/

namespace Sys2Proof.Machine

/-- FENCE: every ordering field is ignored (R181). -/
def execFence (rd rs1 : Reg) (imm : BitVec 12) (s : State) : Host.Outcome State Fault Refusal :=
  complete (.fence rd rs1 imm) (.next) s

/-- FENCE.I: stores are seen by the next fetch without it (R182). -/
def execFenceI (rd rs1 : Reg) (imm : BitVec 12) (s : State) : Host.Outcome State Fault Refusal :=
  complete (.fenceI rd rs1 imm) (.next) s

/-- What ECALL does with the value of the status register (R184): more than 1, read unsigned, is a failed test; 1 halts; 0 goes on. -/
def ecallEffect (v : Word) : Effect :=
  if v.toNat > 1 then .fault (.testFailure v) else if v = 1#32 then .halt else .next

/-- ECALL, and every other SYSTEM word with funct3 000: EBREAK, MRET, SRET, URET, WFI (R184). -/
def execEcall (rd rs1 : Reg) (imm : BitVec 12) (s : State) : Host.Outcome State Fault Refusal :=
  complete (.ecall rd rs1 imm) (ecallEffect (s.x statusReg)) s

/-- The exit sentinel halts; rd and rs1 are ignored (R187). -/
def execCsrrwExit (rd rs1 : Reg) (s : State) : Host.Outcome State Fault Refusal :=
  complete (.csrrwExit rd rs1) (.halt) s

/-- CSRRW: a halt if the selector is `EXIT_CSR`, else no effect; rd is written in neither case (R186). -/
def execCsrrw (rd rs1 : Reg) (csr : BitVec 12) (s : State) : Host.Outcome State Fault Refusal :=
  complete (.csrrw rd rs1 csr) (if csr = s.config.exitCsr then .halt else .next) s

/-- CSRRS: no effect, rd is not written (R188, R185). -/
def execCsrrs (rd rs1 : Reg) (csr : BitVec 12) (s : State) : Host.Outcome State Fault Refusal :=
  complete (.csrrs rd rs1 csr) (.next) s

/-- CSRRC: no effect, rd is not written (R189, R185). -/
def execCsrrc (rd rs1 : Reg) (csr : BitVec 12) (s : State) : Host.Outcome State Fault Refusal :=
  complete (.csrrc rd rs1 csr) (.next) s

/-- CSRRWI: no effect whatever the selector, rd is not written (R190, R185). -/
def execCsrrwi (rd : Reg) (uimm : BitVec 5) (csr : BitVec 12) (s : State) : Host.Outcome State Fault Refusal :=
  complete (.csrrwi rd uimm csr) (.next) s

/-- CSRRSI: no effect whatever the selector, rd is not written (R191, R185). -/
def execCsrrsi (rd : Reg) (uimm : BitVec 5) (csr : BitVec 12) (s : State) : Host.Outcome State Fault Refusal :=
  complete (.csrrsi rd uimm csr) (.next) s

/-- CSRRCI: no effect whatever the selector, rd is not written (R192, R185). -/
def execCsrrci (rd : Reg) (uimm : BitVec 5) (csr : BitVec 12) (s : State) : Host.Outcome State Fault Refusal :=
  complete (.csrrci rd uimm csr) (.next) s

end Sys2Proof.Machine
end

