-- ==== Sys2Proof/Machine/HostOps.lean ====
section
/-! DEFINITION. What each host operation does to the core (70_reset_and_hazards.md R220 to R227): reset, load segment, seed the pc, read.
WHEN the host may do it (R225, R228) is `hostMove` of Machine/Session.lean, which offers them in their window only (log entry 7). -/

namespace Sys2Proof.Machine

/-- Reset, in any state: everything but the parameters takes its reset value (R220, R221). -/
def hostReset (s : State) : State := State.resetWith s.config

/-- What a failed load segment returns to the host: the range it asked for (R224). -/
structure SegmentOutOfBounds where
  addr : Word
  len : Nat
  deriving DecidableEq, Repr

/-- Load segment: bytes of any length, all or nothing; a failure changes neither memory nor the status (R224, 92_eei_decisions.md D22, D25). -/
def loadSegment (a : Word) (bytes : List Byte) (s : State) : Except SegmentOutOfBounds State :=
  match s.writeAll a bytes with
  | some t => .ok t
  | none => .error { addr := a, len := bytes.length }

/-- Several segments in the order given; where two overlap the later wins byte by byte (R223, R224).
DESIGN CHOICE (log entry 12): at the first segment that fails its bounds check it ends with that segment's range and yields no state. The spec
says only that the failing load changes nothing (R224), not whether the host goes on. -/
def loadSegments : List (Word × List Byte) → State → Except SegmentOutOfBounds State
  | [], s => .ok s
  | seg :: segs, s =>
    match loadSegment seg.1 seg.2 s with
    | .ok t => loadSegments segs t
    | .error e => .error e

/-- What the initial pc seed does: it writes the whole 32-bit value (R225). That the host may do it once is `Session.allows`. -/
def seedPc (t : Word) (s : State) : State := s.setPc t

/-- The boot sequence up to the first step: reset, load the segments, seed `ENTRY` (R223). DESIGN CHOICE (log entry 12): where a segment fails its
bounds check, boot ends there, with no state and no seed; a host that goes on instead is a sequence of `hostMove`. -/
def boot (segs : List (Word × List Byte)) (s : State) : Except SegmentOutOfBounds State :=
  match loadSegments segs (hostReset s) with
  | .ok t => .ok (seedPc entry t)
  | .error e => .error e

/-- The Register/PC accessor: the Register File's `read(index)`, index 32 the pc (10_state.md R20, R227). -/
def State.readIndex (s : State) (i : Fin 33) : Word :=
  if i.val = 32 then s.pc else s.x (BitVec.ofNat 5 i.val)

/-- The Register File's `write(index, value)` (10_state.md R20). -/
def State.writeIndex (s : State) (i : Fin 33) (v : Word) : State :=
  if i.val = 32 then s.setPc v else s.setX (BitVec.ofNat 5 i.val) v

/-- The memory accessor: the byte at an address of the buffer, none outside it (R227, 20_memory.md R40). -/
def State.readByte (s : State) (a : Word) : Option Byte :=
  if inBounds s.config a 1 then some (s.byte a.toNat) else none

/-- Where the next fetch can find a word: the pc, or `ENTRY` where the pc is outside the memory, as it is at reset (R222). -/
def fetchPlace (s : State) : Word := if inBounds s.config s.pc 4 then s.pc else entry

/-- A word stored where the next fetch finds it, by the host's own operations, in a core that is running: the host's load and pc seed
(R223 to R225; log entry 8). -/
def placeWord (s : State) (w : Word) : State :=
  match loadSegment (fetchPlace s) (bytesOfWord w) s with
  | .ok t => { seedPc (fetchPlace s) t with status := .running }
  | .error _ => s

end Sys2Proof.Machine
end

