-- ==== Sys2Proof/Machine/Step.lean ====
section
/-! DEFINITION. One step of the core (40_cycle.md R90 to R100). -/

namespace Sys2Proof.Machine

/-- Fetch, decode, then the instruction's meaning; enabled in `Running` only (R90, R100). -/
def step (s : State) : Host.Outcome State Fault Refusal :=
  match s.status with
  | .halted => .fault .noStepWhenHalted
  | .faulted _ => .fault .noStepWhenFaulted
  | .running =>
    match fetch s with
    | none => .next (fetchFault s)
    | some w =>
      match decode s.config.exitCsr w with
      | .error e => .next (decodeFault s w e)
      | .ok i => exec i s

/-- `s` with the table word `w` stored where `step` fetches its next instruction (log entry 8). -/
def State.withFetchWord (s : State) (nbits w : Nat) : State := placeWord s (tableWord nbits w)

end Sys2Proof.Machine
end

