-- ==== Sys2Proof/Machine/Session.lean ====
section
/-! DEFINITION. The host's side of the interface (70_reset_and_hazards.md R225 to R228): which move the host may make when, and what it gets
back. The phase is no state of the core (10_state.md R33): no step reads it, so it stands beside `State`, in `Session`. -/

namespace Sys2Proof.Machine

/-- How far the host is with a run (R223, R228). -/
inductive HostPhase where
  /-- Reset has not been applied: it must be, before a run (R228). -/
  | unreset
  /-- After reset, before the pc seed and the first step. -/
  | loading
  /-- The pc has been seeded, and may not be again (R225). -/
  | seeded
  /-- A step has been taken: the host writes nothing any more (92_eei_decisions.md D24). -/
  | stepping
  deriving DecidableEq, Repr

/-- The core and the host's phase. -/
structure Session where
  core : State
  phase : HostPhase
  deriving DecidableEq, Repr

/-- The interactions of the host table (R228), without the diagnostic dump (00_scope.md R4). -/
inductive HostMove where
  | reset
  | load (a : Word) (bytes : List Byte)
  | seed (t : Word)
  | step
  | readIndex (i : Fin 33)
  | readStatus
  | readFaultRecord
  | readByte (a : Word)
  | stop
  deriving DecidableEq, Repr

/-- What the core returns (R228). -/
inductive HostReply where
  | nothing
  | ok
  | outOfBounds (range : SegmentOutOfBounds)
  | newStatus (status : Status)
  | word (v : Word)
  | status (status : Status)
  | faultRecord (record : Option FaultRecord)
  | byte (b : Option Byte)
  deriving DecidableEq, Repr

/-- When the host may make a move (R225, R227, R228, 92_eei_decisions.md D23, D24): it loads and seeds only between reset and the first step,
seeds once, steps only after a reset and while the status is `Running`, and resets, reads and stops at any time. DEDUCED (log entry 7): a new reset
begins a new run, with a seed of its own. -/
def Session.allows (h : Session) : HostMove → Bool
  | .reset => true
  | .load _ _ => decide (h.phase = .loading ∨ h.phase = .seeded)
  | .seed _ => decide (h.phase = .loading)
  | .step => decide (h.phase ≠ .unreset ∧ h.core.status = .running)
  | .readIndex _ => true
  | .readStatus => true
  | .readFaultRecord => true
  | .readByte _ => true
  | .stop => true

/-- What an allowed move does and returns. A failed load segment leaves all as it was (R224), and the phase with it. -/
def Session.perform (h : Session) : HostMove → Session × HostReply
  | .reset => ({ core := hostReset h.core, phase := .loading }, .nothing)
  | .load a bytes =>
    match loadSegment a bytes h.core with
    | .ok t => ({ h with core := t }, .ok)
    | .error range => (h, .outOfBounds range)
  | .seed t => ({ core := seedPc t h.core, phase := .seeded }, .nothing)
  | .step =>
    match Sys2Proof.Machine.step h.core with
    | .next t => ({ core := t, phase := .stepping }, .newStatus t.status)
    | .fault _ => (h, .newStatus h.core.status)
    | .refused _ => (h, .newStatus h.core.status)
  | .readIndex i => (h, .word (h.core.readIndex i))
  | .readStatus => (h, .status h.core.status)
  | .readFaultRecord => (h, .faultRecord h.core.faultRecord)
  | .readByte a => (h, .byte (h.core.readByte a))
  | .stop => (h, .nothing)

/-- One move of the host: none where the table does not allow it (R228). -/
def hostMove (m : HostMove) (h : Session) : Option (Session × HostReply) :=
  if h.allows m then some (h.perform m) else none

/-- Moves in order, each of them allowed. -/
def hostMoves : List HostMove → Session → Option Session
  | [], h => some h
  | m :: ms, h =>
    match hostMove m h with
    | some (k, _) => hostMoves ms k
    | none => none

/-- The boot sequence as the host's moves (R223). -/
def bootMoves (segs : List (Word × List Byte)) : List HostMove :=
  .reset :: segs.map (fun seg => .load seg.1 seg.2) ++ [.seed entry]

end Sys2Proof.Machine
end

