-- ==== Sys2Proof/Safety.lean ====
section
/-! DEFINITION. The terms claims are stated in: the invariant of the machine, what an instruction leaves unchanged, which registers and
bytes an instruction names, and a run with its end (40_cycle.md R101, R102). -/

namespace Sys2Proof.Machine

/-! ### The invariant -/

/-- What a fault record says is true of the state that holds it, which is the state before the faulting step but for the status
(40_cycle.md R95, 60_exceptions.md R200 to R204). -/
def FaultRecord.coherent (s : State) (r : FaultRecord) : Prop :=
  r.faultPc = s.pc ∧ r.word = fetch s ∧
    match r.cause with
    | .outOfBounds a n => ¬ inBounds s.config a n.bytes
    | .unsupportedOpcode => ∃ w, fetch s = some w ∧ decode s.config.exitCsr w = .error .unsupportedOpcode
    | .unsupportedFunct3 => ∃ w, fetch s = some w ∧ decode s.config.exitCsr w = .error .unsupportedFunct3
    | .testFailure v => (fetch s).isSome = true ∧ s.x statusReg = v ∧ 1 < v.toNat

/-- The invariant every step keeps: the parameters are in the spec's range (00_scope.md R6), the memory has its canonical form and lists
only bytes of the buffer (20_memory.md R40), and a fault record is coherent (10_state.md R32). -/
def State.Inv (s : State) : Prop :=
  s.config.wf ∧ s.mem.wf ∧ (∀ c ∈ s.mem, memBase ≤ c.1 ∧ c.1 < memBase + s.config.memSize) ∧
    ∀ r, s.status = .faulted r → r.coherent s

/-- The invariant every host move keeps: the core's own, and a core that has not stepped since its reset is `Running` (10_state.md R34). -/
def Session.Inv (h : Session) : Prop :=
  h.core.Inv ∧ (h.phase = .loading ∨ h.phase = .seeded → h.core.status = .running)

/-- What the host must keep to with its segments: inside the memory, and no byte in two of them (70_reset_and_hazards.md R228). -/
def ProperImage (c : Config) (segs : List (Word × List Byte)) : Prop :=
  (∀ seg ∈ segs, inBounds c seg.1 seg.2.length) ∧
    segs.Pairwise fun p q => p.1.toNat + p.2.length ≤ q.1.toNat ∨ q.1.toNat + q.2.length ≤ p.1.toNat

/-! ### What a step or an instruction leaves unchanged -/

/-- The outcome is a next state, and `P` holds of it. -/
def Answers (o : Host.Outcome State Fault Refusal) (P : State → Prop) : Prop := ∃ t, o = .next t ∧ P t

/-- Every general register reads as before. -/
def SameRegs (s t : State) : Prop := ∀ r : Reg, t.x r = s.x r

/-- Every byte of memory reads as before. -/
def SameBytes (s t : State) : Prop := ∀ a : Nat, t.byte a = s.byte a

/-- The same to a program: registers, pc, status, parameters and the bytes OF THE BUFFER (10_state.md R33, 20_memory.md R40). The lists of the two
memories may differ, at addresses the buffer does not have. -/
def SameMachine (s t : State) : Prop :=
  SameRegs s t ∧ t.pc = s.pc ∧ t.status = s.status ∧ t.config = s.config ∧
    ∀ a, memBase ≤ a → a < memBase + s.config.memSize → t.byte a = s.byte a

/-- Register `rd` holds `v` (nothing is written where `rd` is x0), the pc is `p`, and nothing else has changed. -/
def RegisterResult (s t : State) (rd : Reg) (v p : Word) : Prop :=
  (∀ r, t.x r = if r = rd ∧ r ≠ 0#5 then v else s.x r) ∧ t.pc = p ∧ SameBytes s t ∧ t.status = s.status ∧ t.config = s.config

/-- The pc is `p` and nothing else has changed. -/
def PcResult (s t : State) (p : Word) : Prop :=
  SameRegs s t ∧ t.pc = p ∧ SameBytes s t ∧ t.status = s.status ∧ t.config = s.config

/-- The `n` bytes at `a` hold the low `8n` bits of `v`, least significant first; the pc has advanced by 4; nothing else has changed. -/
def StoreResult (s t : State) (a : Word) (n : Nat) (v : Word) : Prop :=
  (∀ k, k < n → t.byte (a.toNat + k) = v.extractLsb' (8 * k) 8) ∧
    (∀ b, b < a.toNat ∨ a.toNat + n ≤ b → t.byte b = s.byte b) ∧
    SameRegs s t ∧ t.pc = s.pc + 4#32 ∧ t.status = s.status ∧ t.config = s.config

/-- Only the status has changed, to `st`. -/
def EndedWith (s t : State) (st : Status) : Prop :=
  SameRegs s t ∧ t.pc = s.pc ∧ SameBytes s t ∧ t.config = s.config ∧ t.status = st

end Sys2Proof.Machine

namespace Sys2Proof

open Machine

/-! ### What an instruction names -/

/-- The registers an instruction reads (10_state.md R23). -/
def Instr.sources : Instr → List Reg
  | .add _ rs1 rs2 => [rs1, rs2]
  | .sub _ rs1 rs2 => [rs1, rs2]
  | .sll _ rs1 rs2 => [rs1, rs2]
  | .slt _ rs1 rs2 => [rs1, rs2]
  | .sltu _ rs1 rs2 => [rs1, rs2]
  | .xor _ rs1 rs2 => [rs1, rs2]
  | .srl _ rs1 rs2 => [rs1, rs2]
  | .sra _ rs1 rs2 => [rs1, rs2]
  | .or _ rs1 rs2 => [rs1, rs2]
  | .and _ rs1 rs2 => [rs1, rs2]
  | .addi _ rs1 _ => [rs1]
  | .slti _ rs1 _ => [rs1]
  | .sltiu _ rs1 _ => [rs1]
  | .xori _ rs1 _ => [rs1]
  | .ori _ rs1 _ => [rs1]
  | .andi _ rs1 _ => [rs1]
  | .slli _ rs1 _ => [rs1]
  | .srli _ rs1 _ => [rs1]
  | .srai _ rs1 _ => [rs1]
  | .lui .. => []
  | .auipc .. => []
  | .jal .. => []
  | .jalr _ rs1 _ => [rs1]
  | .beq rs1 rs2 _ => [rs1, rs2]
  | .bne rs1 rs2 _ => [rs1, rs2]
  | .blt rs1 rs2 _ => [rs1, rs2]
  | .bge rs1 rs2 _ => [rs1, rs2]
  | .bltu rs1 rs2 _ => [rs1, rs2]
  | .bgeu rs1 rs2 _ => [rs1, rs2]
  | .lb _ rs1 _ => [rs1]
  | .lh _ rs1 _ => [rs1]
  | .lw _ rs1 _ => [rs1]
  | .lbu _ rs1 _ => [rs1]
  | .lhu _ rs1 _ => [rs1]
  | .sb rs1 rs2 _ => [rs1, rs2]
  | .sh rs1 rs2 _ => [rs1, rs2]
  | .sw rs1 rs2 _ => [rs1, rs2]
  | .fence .. => []
  | .fenceI .. => []
  | .ecall .. => [statusReg]
  | .csrrwExit .. => []
  | .csrrw .. => []
  | .csrrs .. => []
  | .csrrc .. => []
  | .csrrwi .. => []
  | .csrrsi .. => []
  | .csrrci .. => []

/-- The address and width a store writes (43_load_store.md R167); none for every other instruction. -/
def Instr.storeRange (s : State) : Instr → Option (Word × Width)
  | .sb rs1 _ imm => some (effectiveAddress (s.x rs1) (immS imm), .byte)
  | .sh rs1 _ imm => some (effectiveAddress (s.x rs1) (immS imm), .half)
  | .sw rs1 _ imm => some (effectiveAddress (s.x rs1) (immS imm), .word)
  | .add .. | .sub .. | .sll .. | .slt .. | .sltu .. | .xor .. | .srl .. | .sra .. | .or .. | .and .. => none
  | .addi .. | .slti .. | .sltiu .. | .xori .. | .ori .. | .andi .. | .slli .. | .srli .. | .srai .. => none
  | .lui .. | .auipc .. | .jal .. | .jalr .. | .beq .. | .bne .. | .blt .. | .bge .. | .bltu .. | .bgeu .. => none
  | .lb .. | .lh .. | .lw .. | .lbu .. | .lhu .. | .fence .. | .fenceI .. | .ecall .. => none
  | .csrrwExit .. | .csrrw .. | .csrrs .. | .csrrc .. | .csrrwi .. | .csrrsi .. | .csrrci .. => none

/-- The range an instruction's memory access is checked over: four bytes for a load of any width, its own width for a store
(20_memory.md R48). -/
def Instr.checkedRange (s : State) : Instr → Option (Word × Width)
  | .lb _ rs1 imm => some (effectiveAddress (s.x rs1) (immI imm), .word)
  | .lh _ rs1 imm => some (effectiveAddress (s.x rs1) (immI imm), .word)
  | .lw _ rs1 imm => some (effectiveAddress (s.x rs1) (immI imm), .word)
  | .lbu _ rs1 imm => some (effectiveAddress (s.x rs1) (immI imm), .word)
  | .lhu _ rs1 imm => some (effectiveAddress (s.x rs1) (immI imm), .word)
  | .sb rs1 _ imm => some (effectiveAddress (s.x rs1) (immS imm), .byte)
  | .sh rs1 _ imm => some (effectiveAddress (s.x rs1) (immS imm), .half)
  | .sw rs1 _ imm => some (effectiveAddress (s.x rs1) (immS imm), .word)
  | .add .. | .sub .. | .sll .. | .slt .. | .sltu .. | .xor .. | .srl .. | .sra .. | .or .. | .and .. => none
  | .addi .. | .slti .. | .sltiu .. | .xori .. | .ori .. | .andi .. | .slli .. | .srli .. | .srai .. => none
  | .lui .. | .auipc .. | .jal .. | .jalr .. | .beq .. | .bne .. | .blt .. | .bge .. | .bltu .. | .bgeu .. => none
  | .fence .. | .fenceI .. | .ecall .. => none
  | .csrrwExit .. | .csrrw .. | .csrrs .. | .csrrc .. | .csrrwi .. | .csrrsi .. | .csrrci .. => none

/-- The target of a jump, or of a branch if it is taken (42_control.md R141); none for every other instruction. -/
def Instr.target (s : State) : Instr → Option Word
  | .jal _ imm => some (s.pc + immJ imm)
  | .jalr _ rs1 imm => some (s.x rs1 + immI imm)
  | .beq _ _ imm => some (s.pc + immB imm)
  | .bne _ _ imm => some (s.pc + immB imm)
  | .blt _ _ imm => some (s.pc + immB imm)
  | .bge _ _ imm => some (s.pc + immB imm)
  | .bltu _ _ imm => some (s.pc + immB imm)
  | .bgeu _ _ imm => some (s.pc + immB imm)
  | .add .. | .sub .. | .sll .. | .slt .. | .sltu .. | .xor .. | .srl .. | .sra .. | .or .. | .and .. => none
  | .addi .. | .slti .. | .sltiu .. | .xori .. | .ori .. | .andi .. | .slli .. | .srli .. | .srai .. => none
  | .lui .. | .auipc .. | .lb .. | .lh .. | .lw .. | .lbu .. | .lhu .. | .sb .. | .sh .. | .sw .. => none
  | .fence .. | .fenceI .. | .ecall .. => none
  | .csrrwExit .. | .csrrw .. | .csrrs .. | .csrrc .. | .csrrwi .. | .csrrsi .. | .csrrci .. => none

end Sys2Proof

namespace Sys2Proof.Machine

/-! ### A run -/

/-- At most `n` steps of the host's loop: it stops calling step once the status is terminal (70_reset_and_hazards.md R226, 40_cycle.md R101). -/
def hostRun : Nat → State → State
  | 0, s => s
  | n + 1, s =>
    match step s with
    | .next t => hostRun n t
    | .fault _ => s
    | .refused _ => s

/-- A run has ended in success exactly when it reached `Halted` (40_cycle.md R101). -/
def Succeeded (s : State) : Prop := s.status = .halted

/-- A run has ended in failure when it reached `Faulted` (40_cycle.md R101). -/
def Failed (s : State) : Prop := ∃ r, s.status = .faulted r

end Sys2Proof.Machine
end

