-- ==== Sys2Proof/Certificates/Slice0/Obligations.lean ====
section
/-! DEFINITION. The statements for the provers. Each docstring says which rule of spec/ it formalises, and names the decision D<n>
(92_eei_decisions.md), the derivation or the log entry where it rests on one: those are the spec's own or the model's, not the source's
(log entry 2). Every word's fields and selectors rest on D1. -/

open Sys2Proof Sys2Proof.Machine

/-! ### Encoding -/

/-- Decoding the encoding of a well-formed instruction gives it back, every operand and every ignored field included, for every value of
`EXIT_CSR` (30_encoding.md R72 to R82). -/
def Obligations.DecodeOfEncodeIsTheInstruction : Prop :=
  ∀ (c : Config) (i : Instr), i.wellFormed c = true → decode c.exitCsr (encode c.exitCsr i) = .ok i

/-- A word that decodes is the encoding of what it decodes to, and that is well-formed: decoding loses no bit of the word
(30_encoding.md R73). The word a fault record holds rests on it (10_state.md R32). -/
def Obligations.EncodeOfDecodeIsTheWord : Prop :=
  ∀ (c : Config) (w : Word) (i : Instr), decode c.exitCsr w = .ok i → encode c.exitCsr i = w ∧ i.wellFormed c = true

/-- R83, which the spec derives from R74 to R82: exactly which words raise UnsupportedOpcode and which raise UnsupportedFunct3
(the spec's decisions D1, D7 to D11, D13). -/
def Obligations.IllegalEncodingsAreExactlyThese : Prop :=
  ∀ (x : BitVec 12) (w : Word),
    (decode x w = .error .unsupportedOpcode ↔
      opcodeOf w ∉ [0x37#7, 0x17#7, 0x6F#7, 0x67#7, 0x63#7, 0x03#7, 0x23#7, 0x13#7, 0x33#7, 0x0F#7, 0x73#7]) ∧
    (decode x w = .error .unsupportedFunct3 ↔
      (opcodeOf w = 0x33#7 ∧
        (funct7Of w ∉ [0b0000000#7, 0b0100000#7] ∨ (funct7Of w = 0b0100000#7 ∧ funct3Of w ∉ [0b000#3, 0b101#3]))) ∨
      (opcodeOf w = 0x13#7 ∧
        ((funct3Of w = 0b001#3 ∧ funct7Of w ≠ 0b0000000#7) ∨
          (funct3Of w = 0b101#3 ∧ funct7Of w ∉ [0b0000000#7, 0b0100000#7]))) ∨
      (opcodeOf w = 0x63#7 ∧ funct3Of w ∈ [0b010#3, 0b011#3]) ∨
      (opcodeOf w = 0x03#7 ∧ funct3Of w ∈ [0b011#3, 0b110#3, 0b111#3]) ∨
      (opcodeOf w = 0x23#7 ∧ funct3Of w ∉ [0b000#3, 0b001#3, 0b010#3]) ∨
      (opcodeOf w = 0x67#7 ∧ funct3Of w ≠ 0b000#3) ∨
      (opcodeOf w = 0x0F#7 ∧ funct3Of w ∉ [0b000#3, 0b001#3]) ∨
      (opcodeOf w = 0x73#7 ∧ funct3Of w = 0b100#3)) ∧
    (w.extractLsb' 0 2 ≠ 0b11#2 → decode x w = .error .unsupportedOpcode) ∧
    decode x 0x00000000#32 = .error .unsupportedOpcode ∧
    decode x 0xFFFFFFFF#32 = .error .unsupportedOpcode

/-- Every row of spec/opcode_table.json: a word that matches the row's mask and pattern decodes to the row's instruction, with the row's
fields as operands. The CSRRW pattern is split by `EXIT_CSR` (44_system.md R186, R187). -/
def Obligations.OpcodeTableRowsDecodeAsListed : Prop :=
  ∀ (x : BitVec 12) (w : Word),
    (w &&& 0xFE00707F#32 = 0x00000033#32 → decode x w = .ok (.add (rdOf w) (rs1Of w) (rs2Of w))) ∧
    (w &&& 0xFE00707F#32 = 0x40000033#32 → decode x w = .ok (.sub (rdOf w) (rs1Of w) (rs2Of w))) ∧
    (w &&& 0xFE00707F#32 = 0x00001033#32 → decode x w = .ok (.sll (rdOf w) (rs1Of w) (rs2Of w))) ∧
    (w &&& 0xFE00707F#32 = 0x00002033#32 → decode x w = .ok (.slt (rdOf w) (rs1Of w) (rs2Of w))) ∧
    (w &&& 0xFE00707F#32 = 0x00003033#32 → decode x w = .ok (.sltu (rdOf w) (rs1Of w) (rs2Of w))) ∧
    (w &&& 0xFE00707F#32 = 0x00004033#32 → decode x w = .ok (.xor (rdOf w) (rs1Of w) (rs2Of w))) ∧
    (w &&& 0xFE00707F#32 = 0x00005033#32 → decode x w = .ok (.srl (rdOf w) (rs1Of w) (rs2Of w))) ∧
    (w &&& 0xFE00707F#32 = 0x40005033#32 → decode x w = .ok (.sra (rdOf w) (rs1Of w) (rs2Of w))) ∧
    (w &&& 0xFE00707F#32 = 0x00006033#32 → decode x w = .ok (.or (rdOf w) (rs1Of w) (rs2Of w))) ∧
    (w &&& 0xFE00707F#32 = 0x00007033#32 → decode x w = .ok (.and (rdOf w) (rs1Of w) (rs2Of w))) ∧
    (w &&& 0x0000707F#32 = 0x00000013#32 → decode x w = .ok (.addi (rdOf w) (rs1Of w) (immIOf w))) ∧
    (w &&& 0x0000707F#32 = 0x00002013#32 → decode x w = .ok (.slti (rdOf w) (rs1Of w) (immIOf w))) ∧
    (w &&& 0x0000707F#32 = 0x00003013#32 → decode x w = .ok (.sltiu (rdOf w) (rs1Of w) (immIOf w))) ∧
    (w &&& 0x0000707F#32 = 0x00004013#32 → decode x w = .ok (.xori (rdOf w) (rs1Of w) (immIOf w))) ∧
    (w &&& 0x0000707F#32 = 0x00006013#32 → decode x w = .ok (.ori (rdOf w) (rs1Of w) (immIOf w))) ∧
    (w &&& 0x0000707F#32 = 0x00007013#32 → decode x w = .ok (.andi (rdOf w) (rs1Of w) (immIOf w))) ∧
    (w &&& 0xFE00707F#32 = 0x00001013#32 → decode x w = .ok (.slli (rdOf w) (rs1Of w) (rs2Of w))) ∧
    (w &&& 0xFE00707F#32 = 0x00005013#32 → decode x w = .ok (.srli (rdOf w) (rs1Of w) (rs2Of w))) ∧
    (w &&& 0xFE00707F#32 = 0x40005013#32 → decode x w = .ok (.srai (rdOf w) (rs1Of w) (rs2Of w))) ∧
    (w &&& 0x0000007F#32 = 0x00000037#32 → decode x w = .ok (.lui (rdOf w) (immUOf w))) ∧
    (w &&& 0x0000007F#32 = 0x00000017#32 → decode x w = .ok (.auipc (rdOf w) (immUOf w))) ∧
    (w &&& 0x0000007F#32 = 0x0000006F#32 → decode x w = .ok (.jal (rdOf w) (immJOf w))) ∧
    (w &&& 0x0000707F#32 = 0x00000067#32 → decode x w = .ok (.jalr (rdOf w) (rs1Of w) (immIOf w))) ∧
    (w &&& 0x0000707F#32 = 0x00000063#32 → decode x w = .ok (.beq (rs1Of w) (rs2Of w) (immBOf w))) ∧
    (w &&& 0x0000707F#32 = 0x00001063#32 → decode x w = .ok (.bne (rs1Of w) (rs2Of w) (immBOf w))) ∧
    (w &&& 0x0000707F#32 = 0x00004063#32 → decode x w = .ok (.blt (rs1Of w) (rs2Of w) (immBOf w))) ∧
    (w &&& 0x0000707F#32 = 0x00005063#32 → decode x w = .ok (.bge (rs1Of w) (rs2Of w) (immBOf w))) ∧
    (w &&& 0x0000707F#32 = 0x00006063#32 → decode x w = .ok (.bltu (rs1Of w) (rs2Of w) (immBOf w))) ∧
    (w &&& 0x0000707F#32 = 0x00007063#32 → decode x w = .ok (.bgeu (rs1Of w) (rs2Of w) (immBOf w))) ∧
    (w &&& 0x0000707F#32 = 0x00000003#32 → decode x w = .ok (.lb (rdOf w) (rs1Of w) (immIOf w))) ∧
    (w &&& 0x0000707F#32 = 0x00001003#32 → decode x w = .ok (.lh (rdOf w) (rs1Of w) (immIOf w))) ∧
    (w &&& 0x0000707F#32 = 0x00002003#32 → decode x w = .ok (.lw (rdOf w) (rs1Of w) (immIOf w))) ∧
    (w &&& 0x0000707F#32 = 0x00004003#32 → decode x w = .ok (.lbu (rdOf w) (rs1Of w) (immIOf w))) ∧
    (w &&& 0x0000707F#32 = 0x00005003#32 → decode x w = .ok (.lhu (rdOf w) (rs1Of w) (immIOf w))) ∧
    (w &&& 0x0000707F#32 = 0x00000023#32 → decode x w = .ok (.sb (rs1Of w) (rs2Of w) (immSOf w))) ∧
    (w &&& 0x0000707F#32 = 0x00001023#32 → decode x w = .ok (.sh (rs1Of w) (rs2Of w) (immSOf w))) ∧
    (w &&& 0x0000707F#32 = 0x00002023#32 → decode x w = .ok (.sw (rs1Of w) (rs2Of w) (immSOf w))) ∧
    (w &&& 0x0000707F#32 = 0x0000000F#32 → decode x w = .ok (.fence (rdOf w) (rs1Of w) (immIOf w))) ∧
    (w &&& 0x0000707F#32 = 0x0000100F#32 → decode x w = .ok (.fenceI (rdOf w) (rs1Of w) (immIOf w))) ∧
    (w &&& 0x0000707F#32 = 0x00000073#32 → decode x w = .ok (.ecall (rdOf w) (rs1Of w) (immIOf w))) ∧
    (w &&& 0x0000707F#32 = 0x00001073#32 → immIOf w = x → decode x w = .ok (.csrrwExit (rdOf w) (rs1Of w))) ∧
    (w &&& 0x0000707F#32 = 0x00001073#32 → immIOf w ≠ x → decode x w = .ok (.csrrw (rdOf w) (rs1Of w) (immIOf w))) ∧
    (w &&& 0x0000707F#32 = 0x00002073#32 → decode x w = .ok (.csrrs (rdOf w) (rs1Of w) (immIOf w))) ∧
    (w &&& 0x0000707F#32 = 0x00003073#32 → decode x w = .ok (.csrrc (rdOf w) (rs1Of w) (immIOf w))) ∧
    (w &&& 0x0000707F#32 = 0x00005073#32 → decode x w = .ok (.csrrwi (rdOf w) (rs1Of w) (immIOf w))) ∧
    (w &&& 0x0000707F#32 = 0x00006073#32 → decode x w = .ok (.csrrsi (rdOf w) (rs1Of w) (immIOf w))) ∧
    (w &&& 0x0000707F#32 = 0x00007073#32 → decode x w = .ok (.csrrci (rdOf w) (rs1Of w) (immIOf w)))

/-- R67 to R71: every bit of each of the five 32-bit immediates, the ranges of the branch and JAL offsets, and the rules' own examples. -/
def Obligations.ImmediatesAreAssembledBitByBit : Prop :=
  (∀ (w : Word) (k : Nat), k < 32 →
    (immI (immIOf w)).getLsbD k = w.getLsbD (if k < 11 then k + 20 else 31) ∧
    (immS (immSOf w)).getLsbD k = w.getLsbD (if k < 5 then k + 7 else if k < 11 then k + 20 else 31) ∧
    (immB (immBOf w)).getLsbD k =
      (if k = 0 then false else w.getLsbD (if k < 5 then k + 7 else if k < 11 then k + 20 else if k = 11 then 7 else 31)) ∧
    (immU (immUOf w)).getLsbD k = (if k < 12 then false else w.getLsbD k) ∧
    (immJ (immJOf w)).getLsbD k =
      (if k = 0 then false else w.getLsbD (if k < 11 then k + 20 else if k = 11 then 20 else if k < 20 then k else 31))) ∧
  (∀ w : Word, -4096 ≤ (immB (immBOf w)).toInt ∧ (immB (immBOf w)).toInt ≤ 4094 ∧
    -1048576 ≤ (immJ (immJOf w)).toInt ∧ (immJ (immJOf w)).toInt ≤ 1048574) ∧
  immI (immIOf 0xFFF00093#32) = 0xFFFFFFFF#32 ∧ immI (immIOf 0x7FF00093#32) = 0x000007FF#32 ∧
  immS (immSOf 0xFE20AE23#32) = 0xFFFFFFFC#32 ∧
  immB (immBOf 0xFE000EE3#32) = 0xFFFFFFFC#32 ∧ immB (immBOf 0x80629063#32) = 0xFFFFF000#32 ∧
  immB (immBOf 0x7E629FE3#32) = 0x00000FFE#32 ∧ immB (immBOf 0x00000080#32) = 0x00000800#32 ∧
  immU (immUOf 0x123452B7#32) = 0x12345000#32 ∧ immU (immUOf 0xFFFFF2B7#32) = 0xFFFFF000#32 ∧
  immJ (immJOf 0x001000EF#32) = 0x00000800#32 ∧ immJ (immJOf 0xFFFFF06F#32) = 0xFFFFFFFE#32 ∧
  immJ (immJOf 0x8000006F#32) = 0xFFF00000#32 ∧ immJ (immJOf 0x7FFFF06F#32) = 0x000FFFFE#32

/-- R8: `sext_32` copies the top bit upward and `zext_32` fills with zero; `sext_32` is the document's formula taken modulo 2^32, the
identity at full width, and the one extension of the four sign-extended formats. -/
def Obligations.SignAndZeroExtension : Prop :=
  (∀ (n : Nat) (v : BitVec n), 0 < n → n ≤ 32 →
    (∀ k, k < 32 → (sext32 v).getLsbD k = if k < n then v.getLsbD k else v.getLsbD (n - 1)) ∧
    (∀ k, k < 32 → (zext32 v).getLsbD k = if k < n then v.getLsbD k else false) ∧
    sext32 v = BitVec.ofInt 32 (if v.getLsbD (n - 1) then (v.toNat : Int) - 2 ^ n else v.toNat)) ∧
  (∀ x : Word, sext32 x = x) ∧
  (∀ imm : BitVec 12, immI imm = sext32 imm ∧ immS imm = sext32 imm) ∧
  (∀ imm : BitVec 13, immB imm = sext32 imm) ∧ ∀ imm : BitVec 21, immJ imm = sext32 imm

/-- Words written out from the spec's encodings, at least one of every opcode class of R74, decode to the instruction they stand for. That the
EBREAK word 0x00100073 is ECALL is the spec's own decision D12 (log entry 2). -/
def Obligations.SpecWordsDecode : Prop :=
  decode 0xC00#12 0x002081B3#32 = .ok (.add 3#5 1#5 2#5) ∧
  decode 0xC00#12 0xFFF08193#32 = .ok (.addi 3#5 1#5 0xFFF#12) ∧
  decode 0xC00#12 0x4040D193#32 = .ok (.srai 3#5 1#5 4#5) ∧
  decode 0xC00#12 0x123452B7#32 = .ok (.lui 5#5 0x12345#20) ∧
  decode 0xC00#12 0x00001197#32 = .ok (.auipc 3#5 0x00001#20) ∧
  decode 0xC00#12 0x010000EF#32 = .ok (.jal 1#5 16#21) ∧
  decode 0xC00#12 0x004280E7#32 = .ok (.jalr 1#5 5#5 4#12) ∧
  decode 0xC00#12 0xFE209CE3#32 = .ok (.bne 1#5 2#5 0x1FF8#13) ∧
  decode 0xC00#12 0x00109283#32 = .ok (.lh 5#5 1#5 1#12) ∧
  decode 0xC00#12 0xFE50AFA3#32 = .ok (.sw 1#5 5#5 0xFFF#12) ∧
  decode 0xC00#12 0x0FF0000F#32 = .ok (.fence 0#5 0#5 0x0FF#12) ∧
  decode 0xC00#12 0x00100073#32 = .ok (.ecall 0#5 0#5 1#12) ∧
  decode 0xC00#12 0xC0001073#32 = .ok (.csrrwExit 0#5 0#5) ∧
  decode 0xC00#12 0x300312F3#32 = .ok (.csrrw 5#5 6#5 0x300#12) ∧
  decode 0xC00#12 0x3001D2F3#32 = .ok (.csrrwi 5#5 3#5 0x300#12)

/-! ### The step -/

/-- Where the four bytes at the pc decode to an instruction, a step of a running core is that instruction's meaning at that state; the step
adds nothing around it (40_cycle.md R91, R92, R100). -/
def Obligations.StepRunsTheDecodedInstruction : Prop :=
  ∀ (s : State) (i : Instr), s.status = .running → inBounds s.config s.pc 4 →
    decode s.config.exitCsr
      (s.byte (s.pc.toNat + 3) ++ s.byte (s.pc.toNat + 2) ++ s.byte (s.pc.toNat + 1) ++ s.byte s.pc.toNat) = .ok i →
    step s = exec i s

/-- R91: the fetched word is the little-endian value of the four bytes at the pc, whatever the pc's alignment; a fetch out of bounds ends the
step with OutOfBounds and no word. -/
def Obligations.FetchReadsTheWordAtThePc : Prop :=
  ∀ s : State,
    (inBounds s.config s.pc 4 →
      fetch s = some (s.byte (s.pc.toNat + 3) ++ s.byte (s.pc.toNat + 2) ++ s.byte (s.pc.toNat + 1) ++ s.byte s.pc.toNat)) ∧
    (s.status = .running → ¬ inBounds s.config s.pc 4 →
      Answers (step s) fun t => EndedWith s t (.faulted { cause := .outOfBounds s.pc .word, faultPc := s.pc, word := none }))

/-- R92, and R203 for the selectors: a word that is no instruction ends the step `Faulted` with the kind the decoder names, the pc and the
word, and no other change. -/
def Obligations.UndecodableWordsEndFaulted : Prop :=
  ∀ (s : State) (w : Word), s.status = .running → fetch s = some w →
    (decode s.config.exitCsr w = .error .unsupportedOpcode →
      Answers (step s) fun t => EndedWith s t (.faulted { cause := .unsupportedOpcode, faultPc := s.pc, word := some w })) ∧
    (decode s.config.exitCsr w = .error .unsupportedFunct3 →
      Answers (step s) fun t => EndedWith s t (.faulted { cause := .unsupportedFunct3, faultPc := s.pc, word := some w }))

/-- R90, the spec's decision D16: a step exists exactly in `Running`; in `Halted` and `Faulted` there is none, and the model stops under
names of its own (log entry 3). -/
def Obligations.StepExistsExactlyWhileRunning : Prop :=
  ∀ s : State,
    (s.status = .running ↔ ∃ t, step s = .next t) ∧
    (s.status = .halted → step s = .fault .noStepWhenHalted) ∧
    ∀ r, s.status = .faulted r → step s = .fault .noStepWhenFaulted

/-- Every step keeps the invariant: parameters in range, canonical memory inside the buffer, and a coherent fault record
(00_scope.md R6, 20_memory.md R40 to R42, 10_state.md R32, 40_cycle.md R95; the canonical form and the parameters in State are the model's,
log entries 1 and 10). -/
def Obligations.StepKeepsTheInvariant : Prop :=
  ∀ s t : State, s.Inv → step s = .next t → t.Inv

/-- Reset meets the invariant, for every value of the parameters in range (10_state.md R34, the spec's decision D17). The values that
`State.reset` takes are the model's choice (log entry 1). -/
def Obligations.ResetMeetsTheInvariant : Prop :=
  State.reset.Inv ∧ ∀ c : Config, c.wf → (State.resetWith c).Inv

/-- The host's operations keep the invariant, and boot leaves a running core at `ENTRY` (70_reset_and_hazards.md R220, R223 to R225). -/
def Obligations.HostOperationsKeepTheInvariant : Prop :=
  ∀ s : State, s.Inv →
    (hostReset s).Inv ∧
    (∀ a bs t, s.status = .running → loadSegment a bs s = .ok t → t.Inv) ∧
    (∀ p, s.status = .running → (seedPc p s).Inv) ∧
    ∀ segs t, boot segs s = .ok t → t.Inv ∧ t.pc = entry ∧ t.status = .running

/-- R95, of which the spec derives UnsupportedFunct3 and TestFailure from the stage order: a step that raises a fault changes no register, no
memory byte and not the pc; the record holds the pc of the step and the fetched word (10_state.md R32, the spec's decision D19). -/
def Obligations.FaultingStepChangesOnlyTheStatus : Prop :=
  ∀ (s t : State) (r : FaultRecord), step s = .next t → t.status = .faulted r →
    EndedWith s t (.faulted r) ∧ r.faultPc = s.pc ∧ r.word = fetch s

/-- R96, the spec's decision D15: a step that halts changes nothing but the status; the pc keeps the address of the halting instruction. -/
def Obligations.HaltingStepChangesOnlyTheStatus : Prop :=
  ∀ s t : State, step s = .next t → t.status = .halted → EndedWith s t .halted

/-- R102, which the spec derives from R94 to R99: after any step x0 reads 0; at most the register `rd` and at most the stored bytes (at most
4) have changed, never both; the pc has advanced by 4, or is a jump or branch target, or is unchanged because the step halted or faulted. -/
def Obligations.StepWritesOneRegisterOrOneStore : Prop :=
  ∀ s t : State, s.mem.wf → step s = .next t →
    t.x 0#5 = 0#32 ∧
    (∀ r, (∀ w, fetch s = some w → r ≠ rdOf w) → t.x r = s.x r) ∧
    (∀ b, (∀ w i a n, fetch s = some w → decode s.config.exitCsr w = .ok i → i.storeRange s = some (a, n) →
        b < a.toNat ∨ a.toNat + n.bytes ≤ b) → t.byte b = s.byte b) ∧
    ((∃ b, t.byte b ≠ s.byte b) → SameRegs s t) ∧
    (t.pc = s.pc + 4#32 ∨
      (∃ w i, fetch s = some w ∧ decode s.config.exitCsr w = .ok i ∧ i.target s = some t.pc) ∨
      (t.pc = s.pc ∧ t.status ≠ .running))

/-- Exactly which steps halt: ECALL (any SYSTEM word with funct3 000) with x3 = 1, and a CSRRW whose selector is `EXIT_CSR`
(44_system.md R184, R187; the spec's decisions D3, D12). -/
def Obligations.OnlyEcallAndTheSentinelHalt : Prop :=
  ∀ s t : State, step s = .next t →
    (t.status = .halted ↔
      ∃ w, fetch s = some w ∧ opcodeOf w = 0x73#7 ∧
        ((funct3Of w = 0b000#3 ∧ s.x 3#5 = 1#32) ∨ (funct3Of w = 0b001#3 ∧ immIOf w = s.config.exitCsr)))

/-- Exactly which steps raise TestFailure, and with which value: a SYSTEM word with funct3 000 while x3, read unsigned, is more than 1
(44_system.md R184, 60_exceptions.md R204; the spec's decision D12). -/
def Obligations.OnlyEcallRaisesTestFailure : Prop :=
  ∀ (s t : State) (v : Word), step s = .next t →
    ((∃ r, t.status = .faulted r ∧ r.cause = .testFailure v) ↔
      ∃ w, fetch s = some w ∧ opcodeOf w = 0x73#7 ∧ funct3Of w = 0b000#3 ∧ s.x 3#5 = v ∧ 1 < v.toNat)

/-- Exactly which steps raise OutOfBounds, and with which address and length: a fetch, or the load or store of a word that decodes, whose
range is not inside the memory (60_exceptions.md R201). That a reserved selector at such an address is not one of them is R206, which the spec
derives; that a narrow load is checked over four bytes is its decision D6, that the range is not wrapped its decision D4 (log entry 2). -/
def Obligations.OutOfBoundsExactlyOutsideTheMemory : Prop :=
  ∀ (s t : State) (a : Word) (n : Width), step s = .next t →
    ((∃ r, t.status = .faulted r ∧ r.cause = .outOfBounds a n) ↔
      (¬ inBounds s.config s.pc 4 ∧ a = s.pc ∧ n = .word) ∨
      ∃ w i, fetch s = some w ∧ decode s.config.exitCsr w = .ok i ∧ i.checkedRange s = some (a, n) ∧
        ¬ inBounds s.config a n.bytes)

/-- The parameters never change: no step, no load segment, no boot and no move of the host writes them (10_state.md R33, 00_scope.md R6). That a
state carries them is the model's choice (log entry 1). -/
def Obligations.ParametersNeverChange : Prop :=
  ∀ s : State,
    (∀ t, step s = .next t → t.config = s.config) ∧ (hostReset s).config = s.config ∧
    (∀ a bs t, loadSegment a bs s = .ok t → t.config = s.config) ∧
    (∀ p, (seedPc p s).config = s.config) ∧ (∀ segs t, boot segs s = .ok t → t.config = s.config) ∧
    ∀ (ph : HostPhase) (m : HostMove) (k : Session) (r : HostReply), hostMove m { core := s, phase := ph } = some (k, r) →
      k.core.config = s.config

/-- A step depends only on the registers, the pc, the bytes of the buffer, the status and the parameters: two states with canonical memories that
agree on those, and may differ in what their memories list outside the buffer, either both take a step to states that again agree on them, or
neither takes one, for the same reason (10_state.md R33, R35). -/
def Obligations.StepDependsOnlyOnTheArchitecturalState : Prop :=
  ∀ s t : State, s.mem.wf → t.mem.wf → SameMachine s t →
    (∃ s' t', step s = .next s' ∧ step t = .next t' ∧ SameMachine s' t') ∨ ∃ f, step s = .fault f ∧ step t = .fault f

/-- No instruction reads a register it does not name, but ECALL, which reads x3: changing any other register changes nothing of the outcome
but that register (10_state.md R23). -/
def Obligations.UnnamedRegistersDoNotMatter : Prop :=
  ∀ (i : Instr) (s t u : State) (r : Reg) (v : Word), r ∉ i.sources → exec i s = .next t → exec i (s.setX r v) = .next u →
    (∀ q, q ≠ r → u.x q = t.x q) ∧ u.pc = t.pc ∧ SameBytes t u ∧ u.status = t.status ∧ u.config = t.config

/-- An instruction that is no load and no store neither reads nor writes memory: it does the same over any memory, and leaves it alone
(10_state.md R23, 20_memory.md R48). -/
def Obligations.OtherInstructionsIgnoreMemory : Prop :=
  ∀ (i : Instr) (s t : State) (m : Memory), i.checkedRange s = none → exec i s = .next t →
    exec i { s with mem := m } = .next { t with mem := m }

/-! ### Memory and registers -/

/-- The canonical form, the model's choice (log entry 10), is canonical: memories in it that read the same everywhere are equal data. -/
def Obligations.CanonicalMemoryIsItsBytes : Prop :=
  ∀ m n : Memory, m.wf → n.wf → (∀ a, m.read a = n.read a) → m = n

/-- R21, R22: x0 reads 0 after any sequence of writes, whatever was written to it; a write to it is discarded; every other register, and the
pc at index 32, reads the last value written to it. -/
def Obligations.RegisterFileContract : Prop :=
  (∀ (s : State) (writes : List (Fin 33 × Word)), (writes.foldl (fun s p => s.writeIndex p.1 p.2) s).readIndex 0 = 0#32) ∧
  (∀ (s : State) (v : Word), s.writeIndex 0 v = s) ∧
  ∀ (s : State) (i j : Fin 33) (v : Word), i ≠ 0 →
    (s.writeIndex i v).readIndex j = if j = i then v else s.readIndex j

/-- A store followed by a load of its width at the same address gives the stored value back, for aligned and misaligned addresses alike:
SW and LW the whole word, SH and LH or LHU the low half, SB and LB or LBU the low byte, extended (43_load_store.md R162 to R170,
20_memory.md R47). The byte and halfword loads need the four bytes there (20_memory.md R45). -/
def Obligations.LoadReturnsWhatWasStored : Prop :=
  ∀ (s t : State) (rs1 rs2 rb rd : Reg) (immStore immLoad : BitVec 12), s.mem.wf →
    inBounds s.config (effectiveAddress (s.x rs1) (immS immStore)) 4 →
    effectiveAddress (t.x rb) (immI immLoad) = effectiveAddress (s.x rs1) (immS immStore) →
    (exec (.sw rs1 rs2 immStore) s = .next t →
      Answers (exec (.lw rd rb immLoad) t) fun u => RegisterResult t u rd (s.x rs2) (t.pc + 4#32)) ∧
    (exec (.sh rs1 rs2 immStore) s = .next t →
      (Answers (exec (.lh rd rb immLoad) t) fun u =>
        RegisterResult t u rd (sext32 ((s.x rs2).extractLsb' 0 16)) (t.pc + 4#32)) ∧
      Answers (exec (.lhu rd rb immLoad) t) fun u =>
        RegisterResult t u rd (zext32 ((s.x rs2).extractLsb' 0 16)) (t.pc + 4#32)) ∧
    (exec (.sb rs1 rs2 immStore) s = .next t →
      (Answers (exec (.lb rd rb immLoad) t) fun u =>
        RegisterResult t u rd (sext32 ((s.x rs2).extractLsb' 0 8)) (t.pc + 4#32)) ∧
      Answers (exec (.lbu rd rb immLoad) t) fun u =>
        RegisterResult t u rd (zext32 ((s.x rs2).extractLsb' 0 8)) (t.pc + 4#32))

/-- A word stored over the next instruction is what the very next step runs, with no fence (20_memory.md R54, 70_reset_and_hazards.md R232). -/
def Obligations.StoredWordIsExecutedNext : Prop :=
  ∀ (s t : State) (rs1 rs2 : Reg) (imm : BitVec 12) (i : Instr), s.mem.wf → s.status = .running →
    effectiveAddress (s.x rs1) (immS imm) = s.pc + 4#32 → inBounds s.config (s.pc + 4#32) 4 →
    exec (.sw rs1 rs2 imm) s = .next t → decode s.config.exitCsr (s.x rs2) = .ok i →
    step t = exec i t

/-! ### The ALU -/

/-- R111, R112, R113, R115 (and R114 but for SLTIU's operand, which SetLessThanResults states): the ALU's results as exact integers narrowed to
32 bits, comparisons and bits; a shift amount is the right operand modulo 32. -/
def Obligations.AluComputesTheNamedFunctions : Prop :=
  ∀ x y : Word,
    aluApply .addSub x y false = BitVec.ofInt 32 (x.toInt + y.toInt) ∧
    aluApply .addSub x y true = BitVec.ofInt 32 (x.toInt - y.toInt) ∧
    (∀ alt, (aluApply .sll x y alt).toNat = x.toNat * 2 ^ (y.toNat % 32) % 2 ^ 32) ∧
    (aluApply .srlSra x y false).toNat = x.toNat / 2 ^ (y.toNat % 32) ∧
    (aluApply .srlSra x y true).toInt = x.toInt / 2 ^ (y.toNat % 32) ∧
    (∀ alt, aluApply .slt x y alt = if x.toInt < y.toInt then 0x00000001#32 else 0x00000000#32) ∧
    (∀ alt, aluApply .sltu x y alt = if x.toNat < y.toNat then 0x00000001#32 else 0x00000000#32) ∧
    ∀ alt k, k < 32 →
      (aluApply .xor x y alt).getLsbD k = (x.getLsbD k ^^ y.getLsbD k) ∧
      (aluApply .or x y alt).getLsbD k = (x.getLsbD k || y.getLsbD k) ∧
      (aluApply .and x y alt).getLsbD k = (x.getLsbD k && y.getLsbD k)

/-- The source's two ALU properties: subtracting and adding back gives the value, and SRA by 1 keeps the sign (41_alu.md R119, R125,
95_test_vectors.md L1 items 4 and 5). -/
def Obligations.AluRoundTripAndSign : Prop :=
  (∀ a b : Word, aluApply .addSub (aluApply .addSub a b true) b false = a) ∧
  ∀ x : Word, x.getLsbD 31 = true → (aluApply .srlSra x 1#32 true).getLsbD 31 = true

/-- R117 with the spec's decisions D7 and D8: one ALU serves OP and IMM. An OP or IMM word either executes as `apply` on its funct3, with
the right operand and the `alt` the rule gives, written back to `rd`, or is one of the words that raise UnsupportedFunct3. -/
def Obligations.OneAluServesOpAndImm : Prop :=
  ∀ (x : BitVec 12) (w : Word),
    (opcodeOf w = 0x33#7 →
      if funct7Of w = 0b0000000#7 ∨ (funct7Of w = 0b0100000#7 ∧ funct3Of w ∈ [0b000#3, 0b101#3]) then
        ∃ i, decode x w = .ok i ∧ ∀ s : State, Answers (exec i s) fun t =>
          RegisterResult s t (rdOf w)
            (aluApply (aluOpOf (funct3Of w)) (s.x (rs1Of w)) (s.x (rs2Of w)) (decide (funct7Of w = 0b0100000#7))) (s.pc + 4#32)
      else decode x w = .error .unsupportedFunct3) ∧
    (opcodeOf w = 0x13#7 →
      if (funct3Of w = 0b001#3 ∧ funct7Of w ≠ 0b0000000#7) ∨ (funct3Of w = 0b101#3 ∧ funct7Of w ∉ [0b0000000#7, 0b0100000#7])
      then decode x w = .error .unsupportedFunct3
      else
        ∃ i, decode x w = .ok i ∧ ∀ s : State, Answers (exec i s) fun t =>
          RegisterResult s t (rdOf w)
            (aluApply (aluOpOf (funct3Of w)) (s.x (rs1Of w)) (immI (immIOf w))
              (decide (funct3Of w = 0b101#3 ∧ funct7Of w = 0b0100000#7))) (s.pc + 4#32))

/-- ADD, SUB, ADDI: the exact sum or difference, narrowed to 32 bits, in `rd`; the pc advances by 4; nothing else changes
(41_alu.md R118, R119, R128). -/
def Obligations.AddAndSubtractResults : Prop :=
  ∀ (s : State) (rd rs1 rs2 : Reg) (imm : BitVec 12),
    (Answers (exec (.add rd rs1 rs2) s) fun t =>
      RegisterResult s t rd (BitVec.ofInt 32 ((s.x rs1).toInt + (s.x rs2).toInt)) (s.pc + 4#32)) ∧
    (Answers (exec (.sub rd rs1 rs2) s) fun t =>
      RegisterResult s t rd (BitVec.ofInt 32 ((s.x rs1).toInt - (s.x rs2).toInt)) (s.pc + 4#32)) ∧
    Answers (exec (.addi rd rs1 imm) s) fun t =>
      RegisterResult s t rd (BitVec.ofInt 32 ((s.x rs1).toInt + imm.toInt)) (s.pc + 4#32)

/-- XOR, OR, AND and XORI, ORI, ANDI: bitwise on 32 bits, the immediate sign-extended; nothing but `rd` and the pc changes
(41_alu.md R123, R126, R127, R131 to R133). -/
def Obligations.LogicResults : Prop :=
  ∀ (s : State) (rd rs1 rs2 : Reg) (imm : BitVec 12),
    (Answers (exec (.xor rd rs1 rs2) s) fun t => RegisterResult s t rd (s.x rs1 ^^^ s.x rs2) (s.pc + 4#32)) ∧
    (Answers (exec (.or rd rs1 rs2) s) fun t => RegisterResult s t rd (s.x rs1 ||| s.x rs2) (s.pc + 4#32)) ∧
    (Answers (exec (.and rd rs1 rs2) s) fun t => RegisterResult s t rd (s.x rs1 &&& s.x rs2) (s.pc + 4#32)) ∧
    (Answers (exec (.xori rd rs1 imm) s) fun t =>
      RegisterResult s t rd (s.x rs1 ^^^ BitVec.ofInt 32 imm.toInt) (s.pc + 4#32)) ∧
    (Answers (exec (.ori rd rs1 imm) s) fun t =>
      RegisterResult s t rd (s.x rs1 ||| BitVec.ofInt 32 imm.toInt) (s.pc + 4#32)) ∧
    Answers (exec (.andi rd rs1 imm) s) fun t =>
      RegisterResult s t rd (s.x rs1 &&& BitVec.ofInt 32 imm.toInt) (s.pc + 4#32)

/-- SLL, SRL, SRA and SLLI, SRLI, SRAI: multiplication and floor division by a power of two, the amount taken modulo 32; nothing but `rd` and
the pc changes (41_alu.md R120, R124, R125, R134 to R136). -/
def Obligations.ShiftResults : Prop :=
  ∀ (s : State) (rd rs1 rs2 : Reg) (shamt : BitVec 5),
    (Answers (exec (.sll rd rs1 rs2) s) fun t =>
      RegisterResult s t rd (BitVec.ofNat 32 ((s.x rs1).toNat * 2 ^ ((s.x rs2).toNat % 32))) (s.pc + 4#32)) ∧
    (Answers (exec (.srl rd rs1 rs2) s) fun t =>
      RegisterResult s t rd (BitVec.ofNat 32 ((s.x rs1).toNat / 2 ^ ((s.x rs2).toNat % 32))) (s.pc + 4#32)) ∧
    (Answers (exec (.sra rd rs1 rs2) s) fun t =>
      RegisterResult s t rd (BitVec.ofInt 32 ((s.x rs1).toInt / 2 ^ ((s.x rs2).toNat % 32))) (s.pc + 4#32)) ∧
    (Answers (exec (.slli rd rs1 shamt) s) fun t =>
      RegisterResult s t rd (BitVec.ofNat 32 ((s.x rs1).toNat * 2 ^ shamt.toNat)) (s.pc + 4#32)) ∧
    (Answers (exec (.srli rd rs1 shamt) s) fun t =>
      RegisterResult s t rd (BitVec.ofNat 32 ((s.x rs1).toNat / 2 ^ shamt.toNat)) (s.pc + 4#32)) ∧
    Answers (exec (.srai rd rs1 shamt) s) fun t =>
      RegisterResult s t rd (BitVec.ofInt 32 ((s.x rs1).toInt / 2 ^ shamt.toNat)) (s.pc + 4#32)

/-- SLT, SLTI signed and SLTU, SLTIU unsigned: 1 or 0; SLTIU compares with the sign-extended immediate read unsigned; nothing but `rd` and the
pc changes (41_alu.md R121, R122, R129, R130). -/
def Obligations.SetLessThanResults : Prop :=
  ∀ (s : State) (rd rs1 rs2 : Reg) (imm : BitVec 12),
    (Answers (exec (.slt rd rs1 rs2) s) fun t =>
      RegisterResult s t rd (if (s.x rs1).toInt < (s.x rs2).toInt then 1#32 else 0#32) (s.pc + 4#32)) ∧
    (Answers (exec (.sltu rd rs1 rs2) s) fun t =>
      RegisterResult s t rd (if (s.x rs1).toNat < (s.x rs2).toNat then 1#32 else 0#32) (s.pc + 4#32)) ∧
    (Answers (exec (.slti rd rs1 imm) s) fun t =>
      RegisterResult s t rd (if (s.x rs1).toInt < imm.toInt then 1#32 else 0#32) (s.pc + 4#32)) ∧
    Answers (exec (.sltiu rd rs1 imm) s) fun t =>
      RegisterResult s t rd (if (s.x rs1).toNat < (BitVec.ofInt 32 imm.toInt).toNat then 1#32 else 0#32) (s.pc + 4#32)

/-- LUI: the field times 2^12; AUIPC: the instruction's own address plus that, modulo 2^32; nothing but `rd` and the pc changes
(41_alu.md R137, R138). -/
def Obligations.UpperImmediateResults : Prop :=
  ∀ (s : State) (rd : Reg) (imm : BitVec 20),
    (Answers (exec (.lui rd imm) s) fun t => RegisterResult s t rd (BitVec.ofNat 32 (imm.toNat * 2 ^ 12)) (s.pc + 4#32)) ∧
    Answers (exec (.auipc rd imm) s) fun t =>
      RegisterResult s t rd (BitVec.ofNat 32 (s.pc.toNat + imm.toNat * 2 ^ 12)) (s.pc + 4#32)

/-! ### Control transfer -/

/-- JAL and JALR: the link `pc + 4` in `rd` (nowhere if `rd` is x0), the pc at the exact sum modulo 2^32, from the old `rs1` also where `rd` is
`rs1`, and with no bit cleared; nothing else changes (42_control.md R141 to R143; the spec's decision D5). -/
def Obligations.JumpResults : Prop :=
  ∀ (s : State) (rd rs1 : Reg) (offset : BitVec 21) (imm : BitVec 12),
    (Answers (exec (.jal rd offset) s) fun t =>
      RegisterResult s t rd (s.pc + 4#32) (BitVec.ofInt 32 (s.pc.toInt + offset.toInt))) ∧
    Answers (exec (.jalr rd rs1 imm) s) fun t =>
      RegisterResult s t rd (s.pc + 4#32) (BitVec.ofInt 32 ((s.x rs1).toInt + imm.toInt))

/-- The six branches: the pc is `pc + imm_b` where the condition holds on `rs1` and `rs2` and `pc + 4` where it does not; nothing else changes
(42_control.md R141, R144 to R149). -/
def Obligations.BranchResults : Prop :=
  ∀ (s : State) (rs1 rs2 : Reg) (offset : BitVec 13),
    (Answers (exec (.beq rs1 rs2 offset) s) fun t =>
      PcResult s t (if s.x rs1 = s.x rs2 then BitVec.ofInt 32 (s.pc.toInt + offset.toInt) else s.pc + 4#32)) ∧
    (Answers (exec (.bne rs1 rs2 offset) s) fun t =>
      PcResult s t (if s.x rs1 ≠ s.x rs2 then BitVec.ofInt 32 (s.pc.toInt + offset.toInt) else s.pc + 4#32)) ∧
    (Answers (exec (.blt rs1 rs2 offset) s) fun t =>
      PcResult s t (if (s.x rs1).toInt < (s.x rs2).toInt then BitVec.ofInt 32 (s.pc.toInt + offset.toInt) else s.pc + 4#32)) ∧
    (Answers (exec (.bge rs1 rs2 offset) s) fun t =>
      PcResult s t (if (s.x rs2).toInt ≤ (s.x rs1).toInt then BitVec.ofInt 32 (s.pc.toInt + offset.toInt) else s.pc + 4#32)) ∧
    (Answers (exec (.bltu rs1 rs2 offset) s) fun t =>
      PcResult s t (if (s.x rs1).toNat < (s.x rs2).toNat then BitVec.ofInt 32 (s.pc.toInt + offset.toInt) else s.pc + 4#32)) ∧
    Answers (exec (.bgeu rs1 rs2 offset) s) fun t =>
      PcResult s t (if (s.x rs2).toNat ≤ (s.x rs1).toNat then BitVec.ofInt 32 (s.pc.toInt + offset.toInt) else s.pc + 4#32)

/-- R140 (the order of the operands is the spec's general knowledge): a BRANCH word whose funct3 is 010 or 011 raises UnsupportedFunct3;
every other one executes as a branch that is taken exactly where the condition its funct3 selects holds on `x[rs1]` and `x[rs2]`. -/
def Obligations.BranchUnitEvaluatesFunct3 : Prop :=
  ∀ (x : BitVec 12) (w : Word), opcodeOf w = 0x63#7 →
    if funct3Of w ∈ [0b010#3, 0b011#3] then decode x w = .error .unsupportedFunct3
    else
      ∃ i, decode x w = .ok i ∧ ∀ s : State, ∃ taken : Bool,
        (taken = true ↔
          (funct3Of w = 0b000#3 ∧ s.x (rs1Of w) = s.x (rs2Of w)) ∨
          (funct3Of w = 0b001#3 ∧ s.x (rs1Of w) ≠ s.x (rs2Of w)) ∨
          (funct3Of w = 0b100#3 ∧ (s.x (rs1Of w)).toInt < (s.x (rs2Of w)).toInt) ∨
          (funct3Of w = 0b101#3 ∧ (s.x (rs2Of w)).toInt ≤ (s.x (rs1Of w)).toInt) ∨
          (funct3Of w = 0b110#3 ∧ (s.x (rs1Of w)).toNat < (s.x (rs2Of w)).toNat) ∨
          (funct3Of w = 0b111#3 ∧ (s.x (rs2Of w)).toNat ≤ (s.x (rs1Of w)).toNat)) ∧
        Answers (exec i s) fun t => PcResult s t (if taken then s.pc + immB (immBOf w) else s.pc + 4#32)

/-! ### Loads and stores -/

/-- The five loads where the four bytes at the effective address are inside the memory, whatever its alignment: the low byte, half or word,
little-endian, extended, in `rd`; nothing but `rd` and the pc changes (43_load_store.md R160 to R166; the spec's decisions D4, D5, D6). -/
def Obligations.LoadResults : Prop :=
  ∀ (s : State) (rd rs1 : Reg) (imm : BitVec 12) (a : Word),
    a = effectiveAddress (s.x rs1) (immI imm) → inBounds s.config a 4 →
    (Answers (exec (.lb rd rs1 imm) s) fun t =>
      RegisterResult s t rd (BitVec.ofInt 32 (s.byte a.toNat).toInt) (s.pc + 4#32)) ∧
    (Answers (exec (.lh rd rs1 imm) s) fun t =>
      RegisterResult s t rd (BitVec.ofInt 32 (s.byte (a.toNat + 1) ++ s.byte a.toNat).toInt) (s.pc + 4#32)) ∧
    (Answers (exec (.lw rd rs1 imm) s) fun t =>
      RegisterResult s t rd
        (s.byte (a.toNat + 3) ++ s.byte (a.toNat + 2) ++ s.byte (a.toNat + 1) ++ s.byte a.toNat) (s.pc + 4#32)) ∧
    (Answers (exec (.lbu rd rs1 imm) s) fun t =>
      RegisterResult s t rd (BitVec.ofNat 32 (s.byte a.toNat).toNat) (s.pc + 4#32)) ∧
    Answers (exec (.lhu rd rs1 imm) s) fun t =>
      RegisterResult s t rd (BitVec.ofNat 32 (s.byte (a.toNat + 1) ++ s.byte a.toNat).toNat) (s.pc + 4#32)

/-- The five loads where those four bytes are not all inside the memory, the load of one of its last three bytes included: OutOfBounds with
the effective address, length 4, the pc and the instruction's word; no register is written (43_load_store.md R161, 20_memory.md R42, R45;
the spec's decision D6). -/
def Obligations.LoadsOutOfBoundsFault : Prop :=
  ∀ (s : State) (rd rs1 : Reg) (imm : BitVec 12) (a : Word) (i : Instr),
    a = effectiveAddress (s.x rs1) (immI imm) → ¬ inBounds s.config a 4 →
    i ∈ [Instr.lb rd rs1 imm, .lh rd rs1 imm, .lw rd rs1 imm, .lbu rd rs1 imm, .lhu rd rs1 imm] →
    Answers (exec i s) fun t =>
      EndedWith s t (.faulted { cause := .outOfBounds a .word, faultPc := s.pc, word := some (encode s.config.exitCsr i) })

/-- The three stores where the bytes written are inside the memory, whatever the alignment: the low 8, 16 or 32 bits of `x[rs2]`, little-endian,
at the effective address; every other byte, every register and the rest of the state are unchanged but the pc, which advances by 4
(43_load_store.md R160, R167 to R170). -/
def Obligations.StoreResults : Prop :=
  ∀ (s : State) (rs1 rs2 : Reg) (imm : BitVec 12) (a : Word), s.mem.wf →
    a = effectiveAddress (s.x rs1) (immS imm) →
    (inBounds s.config a 1 → Answers (exec (.sb rs1 rs2 imm) s) fun t => StoreResult s t a 1 (s.x rs2)) ∧
    (inBounds s.config a 2 → Answers (exec (.sh rs1 rs2 imm) s) fun t => StoreResult s t a 2 (s.x rs2)) ∧
    (inBounds s.config a 4 → Answers (exec (.sw rs1 rs2 imm) s) fun t => StoreResult s t a 4 (s.x rs2))

/-- The three stores where the bytes are not all inside the memory: OutOfBounds with the effective address and the store's own length, and no
byte is written (43_load_store.md R167, 20_memory.md R42). -/
def Obligations.StoresOutOfBoundsFault : Prop :=
  ∀ (s : State) (rs1 rs2 : Reg) (imm : BitVec 12) (a : Word), a = effectiveAddress (s.x rs1) (immS imm) →
    (¬ inBounds s.config a 1 → Answers (exec (.sb rs1 rs2 imm) s) fun t =>
      EndedWith s t (.faulted { cause := .outOfBounds a .byte, faultPc := s.pc,
                                word := some (encode s.config.exitCsr (.sb rs1 rs2 imm)) })) ∧
    (¬ inBounds s.config a 2 → Answers (exec (.sh rs1 rs2 imm) s) fun t =>
      EndedWith s t (.faulted { cause := .outOfBounds a .half, faultPc := s.pc,
                                word := some (encode s.config.exitCsr (.sh rs1 rs2 imm)) })) ∧
    (¬ inBounds s.config a 4 → Answers (exec (.sw rs1 rs2 imm) s) fun t =>
      EndedWith s t (.faulted { cause := .outOfBounds a .word, faultPc := s.pc,
                                word := some (encode s.config.exitCsr (.sw rs1 rs2 imm)) }))

/-! ### Fence, ECALL and CSR instructions -/

/-- FENCE and FENCE.I, with every value of their ignored fields: the pc advances by 4 and nothing else changes (44_system.md R181, R182;
the spec's decision D11). -/
def Obligations.FencesOnlyAdvanceThePc : Prop :=
  ∀ (s : State) (rd rs1 : Reg) (imm : BitVec 12),
    (Answers (exec (.fence rd rs1 imm) s) fun t => PcResult s t (s.pc + 4#32)) ∧
    Answers (exec (.fenceI rd rs1 imm) s) fun t => PcResult s t (s.pc + 4#32)

/-- R184: ECALL, which every SYSTEM word with funct3 000 is by the spec's decision D12 (EBREAK, MRET, SRET, URET and WFI among them), halts
if x3 = 1, raises TestFailure with the value of x3 if it is more than 1 read unsigned, and only advances the pc if it is 0. -/
def Obligations.EcallInspectsTheStatusRegister : Prop :=
  (∀ (x : BitVec 12) (w : Word), opcodeOf w = 0x73#7 → funct3Of w = 0b000#3 →
    decode x w = .ok (.ecall (rdOf w) (rs1Of w) (immIOf w))) ∧
  (∀ (x : BitVec 12) (w : Word), w ∈ [0x00000073#32, 0x00100073#32, 0x30200073#32, 0x10200073#32, 0x00200073#32, 0x10500073#32] →
    ∃ rd rs1 imm, decode x w = .ok (.ecall rd rs1 imm)) ∧
  ∀ (s : State) (rd rs1 : Reg) (imm : BitVec 12),
    (1 < (s.x 3#5).toNat → Answers (exec (.ecall rd rs1 imm) s) fun t =>
      EndedWith s t (.faulted { cause := .testFailure (s.x 3#5), faultPc := s.pc,
                                word := some (encode s.config.exitCsr (.ecall rd rs1 imm)) })) ∧
    (s.x 3#5 = 1#32 → Answers (exec (.ecall rd rs1 imm) s) fun t => EndedWith s t .halted) ∧
    (s.x 3#5 = 0#32 → Answers (exec (.ecall rd rs1 imm) s) fun t => PcResult s t (s.pc + 4#32))

/-- R187, with `EXIT_CSR` open by the spec's decision D3: a CSRRW word whose selector is `EXIT_CSR` is the exit sentinel, for every value of the
parameter, of `rd` and of `rs1`, and its effect is to halt; CSRRWI, CSRRS and the others with the same selector are no sentinels. The third
clause is about the term CSRRW with that selector, which no word decodes to: that it halts is R186's pseudocode, and that `exec` has a meaning
for it the model's choice (log entry 6). -/
def Obligations.ExitSentinelHalts : Prop :=
  (∀ (x : BitVec 12) (w : Word), opcodeOf w = 0x73#7 → funct3Of w = 0b001#3 →
    ((∃ rd rs1, decode x w = .ok (.csrrwExit rd rs1)) ↔ immIOf w = x)) ∧
  (∀ (s : State) (rd rs1 : Reg), Answers (exec (.csrrwExit rd rs1) s) fun t => EndedWith s t .halted) ∧
  (∀ (s : State) (rd rs1 : Reg), Answers (exec (.csrrw rd rs1 s.config.exitCsr) s) fun t => EndedWith s t .halted) ∧
  ∀ (s : State) (rd rs1 : Reg) (i : Instr),
    i ∈ [Instr.csrrs rd rs1 s.config.exitCsr, .csrrc rd rs1 s.config.exitCsr, .csrrwi rd rs1 s.config.exitCsr,
      .csrrsi rd rs1 s.config.exitCsr, .csrrci rd rs1 s.config.exitCsr] →
    Answers (exec i s) fun t => PcResult s t (s.pc + 4#32)

/-- The six CSR instructions, CSRRW with a selector other than `EXIT_CSR`: the pc advances by 4 and nothing else changes; `rd` is not written
(44_system.md R185, R186, R188 to R192; the spec's decision D14). -/
def Obligations.CsrInstructionsOnlyAdvanceThePc : Prop :=
  ∀ (s : State) (rd rs1 : Reg) (uimm : BitVec 5) (csr : BitVec 12),
    (csr ≠ s.config.exitCsr → Answers (exec (.csrrw rd rs1 csr) s) fun t => PcResult s t (s.pc + 4#32)) ∧
    (Answers (exec (.csrrs rd rs1 csr) s) fun t => PcResult s t (s.pc + 4#32)) ∧
    (Answers (exec (.csrrc rd rs1 csr) s) fun t => PcResult s t (s.pc + 4#32)) ∧
    (Answers (exec (.csrrwi rd uimm csr) s) fun t => PcResult s t (s.pc + 4#32)) ∧
    (Answers (exec (.csrrsi rd uimm csr) s) fun t => PcResult s t (s.pc + 4#32)) ∧
    Answers (exec (.csrrci rd uimm csr) s) fun t => PcResult s t (s.pc + 4#32)

/-! ### The host -/

/-- R34 and R221 with the spec's decision D17: reset, applied in any state, makes every register 0, the pc 0, every memory byte 0, the
status `Running` and the fault record none. `State.reset` is such a state; its parameter values are the model's choice (log entry 1) and are
not stated here. -/
def Obligations.ResetClearsEverything : Prop :=
  ∀ s t : State, t = hostReset s ∨ t = State.reset →
    (∀ r, t.x r = 0#32) ∧ t.pc = 0#32 ∧ (∀ a, t.byte a = 0#8) ∧ t.status = .running ∧ t.faultRecord = none

/-- R224 with the spec's decisions D22 and D25: load segment copies bytes of any length, in bounds or not at all; where it fails nothing is
written and the range is returned to the host. It changes nothing but those bytes, so of two overlapping segments the later wins byte by
byte. -/
def Obligations.LoadSegmentIsAllOrNothing : Prop :=
  ∀ (s : State) (a : Word) (bs : List Byte), s.mem.wf →
    (inBounds s.config a bs.length →
      ∃ t, loadSegment a bs s = .ok t ∧ (∀ k (h : k < bs.length), t.byte (a.toNat + k) = bs[k]) ∧
        (∀ b, b < a.toNat ∨ a.toNat + bs.length ≤ b → t.byte b = s.byte b) ∧
        t.mem.wf ∧ SameRegs s t ∧ t.pc = s.pc ∧ t.status = s.status ∧ t.config = s.config) ∧
    (¬ inBounds s.config a bs.length → loadSegment a bs s = .error { addr := a, len := bs.length })

/-- The boot sequence with one segment: the core is running at `ENTRY` with every register 0, the segment's bytes in memory and every other byte 0
(70_reset_and_hazards.md R223). -/
def Obligations.BootLoadsTheImage : Prop :=
  ∀ (s t : State) (a : Word) (bs : List Byte), boot [(a, bs)] s = .ok t →
    t.pc = 0x80000000#32 ∧ t.status = .running ∧ (∀ r, t.x r = 0#32) ∧
    (∀ k (h : k < bs.length), t.byte (a.toNat + k) = bs[k]) ∧
    ∀ b, b < a.toNat ∨ a.toNat + bs.length ≤ b → t.byte b = 0#8

/-- If the host steps without seeding the pc, the first fetch, at address 0, is out of bounds and the run ends `Faulted`
(70_reset_and_hazards.md R222, which the spec derives). -/
def Obligations.UnseededRunFaultsAtAddressZero : Prop :=
  ∀ s : State, Answers (step (hostReset s)) fun t =>
    EndedWith (hostReset s) t (.faulted { cause := .outOfBounds 0#32 .word, faultPc := 0#32, word := none })

/-- A run: it takes the steps of the core one by one for as long as there is one, it can be taken in parts, it is over once the status is
terminal, and while it is not over the status is `Running` (40_cycle.md R101, 70_reset_and_hazards.md R226). -/
def Obligations.RunsEndExactlyInHaltedOrFaulted : Prop :=
  ∀ (s : State) (m n : Nat),
    hostRun 0 s = s ∧
    (s.status = .running → ∃ t, step s = .next t ∧ hostRun (n + 1) s = hostRun n t) ∧
    hostRun (m + n) s = hostRun n (hostRun m s) ∧
    (Succeeded s ∨ Failed s → hostRun n s = s) ∧
    (¬ Succeeded (hostRun n s) → ¬ Failed (hostRun n s) → (hostRun n s).status = .running)

/-! ### The host's moves -/

/-- R228: which moves the host may make when. It loads and seeds only between reset and the first step, seeds once (R225), steps after a reset and
while the status is `Running` (R226), and resets, reads and stops at any time (the spec's decisions D16, D17, D23, D24). -/
def Obligations.HostMovesAreAllowedAsTheTableSays : Prop :=
  ∀ h : Session,
    (hostMove .reset h).isSome = true ∧
    (∀ a bs, (hostMove (.load a bs) h).isSome = true ↔ h.phase = .loading ∨ h.phase = .seeded) ∧
    (∀ p, (hostMove (.seed p) h).isSome = true ↔ h.phase = .loading) ∧
    ((hostMove .step h).isSome = true ↔ h.phase ≠ .unreset ∧ h.core.status = .running) ∧
    (∀ i, (hostMove (.readIndex i) h).isSome = true) ∧ (∀ a, (hostMove (.readByte a) h).isSome = true) ∧
    ∀ m ∈ [HostMove.readStatus, .readFaultRecord, .stop], (hostMove m h).isSome = true

/-- What an allowed move does to the core and to the phase, and what the host gets back: reset, load segment, the pc seed of a whole word, a step
with the new status, and reads, which change nothing (70_reset_and_hazards.md R220, R224 to R228; the spec's decisions D22 to D25). That a reset
opens the host's window again is deduced (log entry 7). -/
def Obligations.HostMovesDoAsTheTableSays : Prop :=
  ∀ h : Session,
    hostMove .reset h = some ({ core := hostReset h.core, phase := .loading }, .nothing) ∧
    (∀ a bs, h.phase = .loading ∨ h.phase = .seeded →
      (∀ t, loadSegment a bs h.core = .ok t → hostMove (.load a bs) h = some ({ core := t, phase := h.phase }, .ok)) ∧
      ∀ e, loadSegment a bs h.core = .error e → hostMove (.load a bs) h = some (h, .outOfBounds e)) ∧
    (∀ p, h.phase = .loading →
      hostMove (.seed p) h = some ({ core := { h.core with pc := p }, phase := .seeded }, .nothing)) ∧
    (∀ t, h.phase ≠ .unreset → step h.core = .next t → hostMove .step h = some ({ core := t, phase := .stepping }, .newStatus t.status)) ∧
    (∀ r : Reg, hostMove (.readIndex ⟨r.toNat, by have := r.isLt; omega⟩) h = some (h, .word (h.core.x r))) ∧
    hostMove (.readIndex 32) h = some (h, .word h.core.pc) ∧
    hostMove .readStatus h = some (h, .status h.core.status) ∧
    hostMove .readFaultRecord h = some (h, .faultRecord h.core.faultRecord) ∧
    (∀ a, hostMove (.readByte a) h = some (h, .byte (if inBounds h.core.config a 1 then some (h.core.byte a.toNat) else none))) ∧
    hostMove .stop h = some (h, .nothing)

/-- After the first step, until the next reset, the host writes nothing: whatever moves it makes, it may neither load nor seed, and what has become
of the core is steps and nothing else. After a pc seed it may not seed again until the next reset (70_reset_and_hazards.md R225, R228; the
spec's decision D24). That a reset opens both again is deduced (log entry 7). -/
def Obligations.HostWritesOnlyBeforeTheFirstStep : Prop :=
  ∀ (h k k' : Session) (r : HostReply) (ms : List HostMove), HostMove.reset ∉ ms → hostMoves ms k = some k' →
    (hostMove .step h = some (k, r) →
      (∀ a bs, hostMove (.load a bs) k' = none) ∧ (∀ p, hostMove (.seed p) k' = none) ∧ ∃ n, k'.core = hostRun n k.core) ∧
    ∀ p, hostMove (.seed p) h = some (k, r) → ∀ q, hostMove (.seed q) k' = none

/-- Every host move keeps the invariant of the session, and a machine in any state that meets the core's invariant begins one, before its reset
(70_reset_and_hazards.md R220 to R228; the parameters in State and the canonical form are the model's, log entries 1 and 10). -/
def Obligations.HostMovesKeepTheSessionInvariant : Prop :=
  (∀ (h k : Session) (m : HostMove) (r : HostReply), h.Inv → hostMove m h = some (k, r) → k.Inv) ∧
    ∀ s : State, s.Inv → Session.Inv { core := s, phase := .unreset }

/-- A boot that succeeds is a sequence of moves the host may make, in any phase of an earlier run: reset, the load segments, the seed of `ENTRY`
(70_reset_and_hazards.md R223, R228). That a boot with a segment out of bounds does not succeed is the model's choice (log entry 12). -/
def Obligations.BootIsASequenceOfHostMoves : Prop :=
  ∀ (segs : List (Word × List Byte)) (s t : State) (ph : HostPhase), boot segs s = .ok t →
    hostMoves (bootMoves segs) { core := s, phase := ph } = some { core := t, phase := .seeded }

/-- An image whose segments are inside the memory and do not overlap boots, in whatever order its segments are loaded, and always to the same
state: every segment's bytes are in memory, every other byte is 0 (70_reset_and_hazards.md R223, R228). -/
def Obligations.ProperImagesBootInAnyOrder : Prop :=
  ∀ (segs segs' : List (Word × List Byte)) (s : State), ProperImage s.config segs → segs.Perm segs' →
    ∃ t, boot segs s = .ok t ∧ boot segs' s = .ok t ∧ t.pc = 0x80000000#32 ∧ t.status = .running ∧ (∀ r, t.x r = 0#32) ∧
      (∀ seg ∈ segs, ∀ k (h : k < seg.2.length), t.byte (seg.1.toNat + k) = seg.2[k]) ∧
      ∀ b, (∀ seg ∈ segs, b < seg.1.toNat ∨ seg.1.toNat + seg.2.length ≤ b) → t.byte b = 0#8
end

