-- ==== Sys2Proof/Laws/Decode.lean ====
section
/-! SUPPORT. The fields of the six formats (30_encoding.md R72): what each slice of an encoded word holds, and each format put together again
from the fields the decoder extracts. -/

namespace Sys2Proof

theorem slice_low {n m : Nat} (x : BitVec n) (y : BitVec m) (lo k : Nat) (h : lo + k ≤ m) :
    (x ++ y).extractLsb' lo k = y.extractLsb' lo k := by
  ext i hi
  rw [BitVec.getElem_extractLsb', BitVec.getElem_extractLsb', BitVec.getLsbD_append, if_pos (by omega)]

theorem slice_high {n m : Nat} (x : BitVec n) (y : BitVec m) (lo k : Nat) (h : m ≤ lo) :
    (x ++ y).extractLsb' lo k = x.extractLsb' (lo - m) k := by
  ext i hi
  rw [BitVec.getElem_extractLsb', BitVec.getElem_extractLsb', BitVec.getLsbD_append, if_neg (by omega),
    show lo + i - m = lo - m + i by omega]

theorem slice_self {n : Nat} (x : BitVec n) : x.extractLsb' 0 n = x := by
  ext i hi
  simp

/-! ### R format -/

theorem encodeR_slice_0 (f7 : BitVec 7) (rs2 rs1 : Reg) (f3 : BitVec 3) (rd : Reg) (op : BitVec 7) :
    (encodeR f7 rs2 rs1 f3 rd op).extractLsb' 0 7 = op := by
  change BitVec.extractLsb' (n := 7 + 5 + 5 + 3 + 5 + 7) 0 7 _ = _
  unfold encodeR
  simp (disch := decide) only [slice_low, slice_self]

theorem encodeR_slice_7 (f7 : BitVec 7) (rs2 rs1 : Reg) (f3 : BitVec 3) (rd : Reg) (op : BitVec 7) :
    (encodeR f7 rs2 rs1 f3 rd op).extractLsb' 7 5 = rd := by
  change BitVec.extractLsb' (n := 7 + 5 + 5 + 3 + 5 + 7) 7 5 _ = _
  unfold encodeR
  simp (disch := decide) only [slice_low, slice_high, Nat.reduceSub, slice_self]

theorem encodeR_slice_12 (f7 : BitVec 7) (rs2 rs1 : Reg) (f3 : BitVec 3) (rd : Reg) (op : BitVec 7) :
    (encodeR f7 rs2 rs1 f3 rd op).extractLsb' 12 3 = f3 := by
  change BitVec.extractLsb' (n := 7 + 5 + 5 + 3 + 5 + 7) 12 3 _ = _
  unfold encodeR
  simp (disch := decide) only [slice_low, slice_high, Nat.reduceSub, slice_self]

theorem encodeR_slice_15 (f7 : BitVec 7) (rs2 rs1 : Reg) (f3 : BitVec 3) (rd : Reg) (op : BitVec 7) :
    (encodeR f7 rs2 rs1 f3 rd op).extractLsb' 15 5 = rs1 := by
  change BitVec.extractLsb' (n := 7 + 5 + 5 + 3 + 5 + 7) 15 5 _ = _
  unfold encodeR
  simp (disch := decide) only [slice_low, slice_high, Nat.reduceSub, slice_self]

theorem encodeR_slice_20 (f7 : BitVec 7) (rs2 rs1 : Reg) (f3 : BitVec 3) (rd : Reg) (op : BitVec 7) :
    (encodeR f7 rs2 rs1 f3 rd op).extractLsb' 20 5 = rs2 := by
  change BitVec.extractLsb' (n := 7 + 5 + 5 + 3 + 5 + 7) 20 5 _ = _
  unfold encodeR
  simp (disch := decide) only [slice_low, slice_high, Nat.reduceSub, slice_self]

theorem encodeR_slice_25 (f7 : BitVec 7) (rs2 rs1 : Reg) (f3 : BitVec 3) (rd : Reg) (op : BitVec 7) :
    (encodeR f7 rs2 rs1 f3 rd op).extractLsb' 25 7 = f7 := by
  change BitVec.extractLsb' (n := 7 + 5 + 5 + 3 + 5 + 7) 25 7 _ = _
  unfold encodeR
  simp (disch := decide) only [slice_high, Nat.reduceSub, slice_self]

/-! ### I format -/

theorem encodeI_slice_0 (imm : BitVec 12) (rs1 : Reg) (f3 : BitVec 3) (rd : Reg) (op : BitVec 7) :
    (encodeI imm rs1 f3 rd op).extractLsb' 0 7 = op := by
  change BitVec.extractLsb' (n := 12 + 5 + 3 + 5 + 7) 0 7 _ = _
  unfold encodeI
  simp (disch := decide) only [slice_low, slice_self]

theorem encodeI_slice_7 (imm : BitVec 12) (rs1 : Reg) (f3 : BitVec 3) (rd : Reg) (op : BitVec 7) :
    (encodeI imm rs1 f3 rd op).extractLsb' 7 5 = rd := by
  change BitVec.extractLsb' (n := 12 + 5 + 3 + 5 + 7) 7 5 _ = _
  unfold encodeI
  simp (disch := decide) only [slice_low, slice_high, Nat.reduceSub, slice_self]

theorem encodeI_slice_12 (imm : BitVec 12) (rs1 : Reg) (f3 : BitVec 3) (rd : Reg) (op : BitVec 7) :
    (encodeI imm rs1 f3 rd op).extractLsb' 12 3 = f3 := by
  change BitVec.extractLsb' (n := 12 + 5 + 3 + 5 + 7) 12 3 _ = _
  unfold encodeI
  simp (disch := decide) only [slice_low, slice_high, Nat.reduceSub, slice_self]

theorem encodeI_slice_15 (imm : BitVec 12) (rs1 : Reg) (f3 : BitVec 3) (rd : Reg) (op : BitVec 7) :
    (encodeI imm rs1 f3 rd op).extractLsb' 15 5 = rs1 := by
  change BitVec.extractLsb' (n := 12 + 5 + 3 + 5 + 7) 15 5 _ = _
  unfold encodeI
  simp (disch := decide) only [slice_low, slice_high, Nat.reduceSub, slice_self]

theorem encodeI_slice_20 (imm : BitVec 12) (rs1 : Reg) (f3 : BitVec 3) (rd : Reg) (op : BitVec 7) :
    (encodeI imm rs1 f3 rd op).extractLsb' 20 12 = imm := by
  change BitVec.extractLsb' (n := 12 + 5 + 3 + 5 + 7) 20 12 _ = _
  unfold encodeI
  simp (disch := decide) only [slice_high, Nat.reduceSub, slice_self]

/-! ### S format -/

theorem encodeS_slice_0 (imm : BitVec 12) (rs2 rs1 : Reg) (f3 : BitVec 3) (op : BitVec 7) :
    (encodeS imm rs2 rs1 f3 op).extractLsb' 0 7 = op := by
  change BitVec.extractLsb' (n := 7 + 5 + 5 + 3 + 5 + 7) 0 7 _ = _
  unfold encodeS
  simp (disch := decide) only [slice_low, slice_self]

theorem encodeS_slice_7 (imm : BitVec 12) (rs2 rs1 : Reg) (f3 : BitVec 3) (op : BitVec 7) :
    (encodeS imm rs2 rs1 f3 op).extractLsb' 7 5 = imm.extractLsb' 0 5 := by
  change BitVec.extractLsb' (n := 7 + 5 + 5 + 3 + 5 + 7) 7 5 _ = _
  unfold encodeS
  simp (disch := decide) only [slice_low, slice_high, Nat.reduceSub, slice_self]

theorem encodeS_slice_12 (imm : BitVec 12) (rs2 rs1 : Reg) (f3 : BitVec 3) (op : BitVec 7) :
    (encodeS imm rs2 rs1 f3 op).extractLsb' 12 3 = f3 := by
  change BitVec.extractLsb' (n := 7 + 5 + 5 + 3 + 5 + 7) 12 3 _ = _
  unfold encodeS
  simp (disch := decide) only [slice_low, slice_high, Nat.reduceSub, slice_self]

theorem encodeS_slice_15 (imm : BitVec 12) (rs2 rs1 : Reg) (f3 : BitVec 3) (op : BitVec 7) :
    (encodeS imm rs2 rs1 f3 op).extractLsb' 15 5 = rs1 := by
  change BitVec.extractLsb' (n := 7 + 5 + 5 + 3 + 5 + 7) 15 5 _ = _
  unfold encodeS
  simp (disch := decide) only [slice_low, slice_high, Nat.reduceSub, slice_self]

theorem encodeS_slice_20 (imm : BitVec 12) (rs2 rs1 : Reg) (f3 : BitVec 3) (op : BitVec 7) :
    (encodeS imm rs2 rs1 f3 op).extractLsb' 20 5 = rs2 := by
  change BitVec.extractLsb' (n := 7 + 5 + 5 + 3 + 5 + 7) 20 5 _ = _
  unfold encodeS
  simp (disch := decide) only [slice_low, slice_high, Nat.reduceSub, slice_self]

theorem encodeS_slice_25 (imm : BitVec 12) (rs2 rs1 : Reg) (f3 : BitVec 3) (op : BitVec 7) :
    (encodeS imm rs2 rs1 f3 op).extractLsb' 25 7 = imm.extractLsb' 5 7 := by
  change BitVec.extractLsb' (n := 7 + 5 + 5 + 3 + 5 + 7) 25 7 _ = _
  unfold encodeS
  simp (disch := decide) only [slice_high, Nat.reduceSub, slice_self]

/-! ### B format -/

theorem encodeB_slice_0 (imm : BitVec 13) (rs2 rs1 : Reg) (f3 : BitVec 3) (op : BitVec 7) :
    (encodeB imm rs2 rs1 f3 op).extractLsb' 0 7 = op := by
  change BitVec.extractLsb' (n := 1 + 6 + 5 + 5 + 3 + 4 + 1 + 7) 0 7 _ = _
  unfold encodeB
  simp (disch := decide) only [slice_low, slice_self]

theorem encodeB_slice_7 (imm : BitVec 13) (rs2 rs1 : Reg) (f3 : BitVec 3) (op : BitVec 7) :
    (encodeB imm rs2 rs1 f3 op).extractLsb' 7 1 = imm.extractLsb' 11 1 := by
  change BitVec.extractLsb' (n := 1 + 6 + 5 + 5 + 3 + 4 + 1 + 7) 7 1 _ = _
  unfold encodeB
  simp (disch := decide) only [slice_low, slice_high, Nat.reduceSub, slice_self]

theorem encodeB_slice_8 (imm : BitVec 13) (rs2 rs1 : Reg) (f3 : BitVec 3) (op : BitVec 7) :
    (encodeB imm rs2 rs1 f3 op).extractLsb' 8 4 = imm.extractLsb' 1 4 := by
  change BitVec.extractLsb' (n := 1 + 6 + 5 + 5 + 3 + 4 + 1 + 7) 8 4 _ = _
  unfold encodeB
  simp (disch := decide) only [slice_low, slice_high, Nat.reduceSub, slice_self]

theorem encodeB_slice_12 (imm : BitVec 13) (rs2 rs1 : Reg) (f3 : BitVec 3) (op : BitVec 7) :
    (encodeB imm rs2 rs1 f3 op).extractLsb' 12 3 = f3 := by
  change BitVec.extractLsb' (n := 1 + 6 + 5 + 5 + 3 + 4 + 1 + 7) 12 3 _ = _
  unfold encodeB
  simp (disch := decide) only [slice_low, slice_high, Nat.reduceSub, slice_self]

theorem encodeB_slice_15 (imm : BitVec 13) (rs2 rs1 : Reg) (f3 : BitVec 3) (op : BitVec 7) :
    (encodeB imm rs2 rs1 f3 op).extractLsb' 15 5 = rs1 := by
  change BitVec.extractLsb' (n := 1 + 6 + 5 + 5 + 3 + 4 + 1 + 7) 15 5 _ = _
  unfold encodeB
  simp (disch := decide) only [slice_low, slice_high, Nat.reduceSub, slice_self]

theorem encodeB_slice_20 (imm : BitVec 13) (rs2 rs1 : Reg) (f3 : BitVec 3) (op : BitVec 7) :
    (encodeB imm rs2 rs1 f3 op).extractLsb' 20 5 = rs2 := by
  change BitVec.extractLsb' (n := 1 + 6 + 5 + 5 + 3 + 4 + 1 + 7) 20 5 _ = _
  unfold encodeB
  simp (disch := decide) only [slice_low, slice_high, Nat.reduceSub, slice_self]

theorem encodeB_slice_25 (imm : BitVec 13) (rs2 rs1 : Reg) (f3 : BitVec 3) (op : BitVec 7) :
    (encodeB imm rs2 rs1 f3 op).extractLsb' 25 6 = imm.extractLsb' 5 6 := by
  change BitVec.extractLsb' (n := 1 + 6 + 5 + 5 + 3 + 4 + 1 + 7) 25 6 _ = _
  unfold encodeB
  simp (disch := decide) only [slice_low, slice_high, Nat.reduceSub, slice_self]

theorem encodeB_slice_31 (imm : BitVec 13) (rs2 rs1 : Reg) (f3 : BitVec 3) (op : BitVec 7) :
    (encodeB imm rs2 rs1 f3 op).extractLsb' 31 1 = imm.extractLsb' 12 1 := by
  change BitVec.extractLsb' (n := 1 + 6 + 5 + 5 + 3 + 4 + 1 + 7) 31 1 _ = _
  unfold encodeB
  simp (disch := decide) only [slice_high, Nat.reduceSub, slice_self]

/-! ### U format -/

theorem encodeU_slice_0 (imm : BitVec 20) (rd : Reg) (op : BitVec 7) :
    (encodeU imm rd op).extractLsb' 0 7 = op := by
  change BitVec.extractLsb' (n := 20 + 5 + 7) 0 7 _ = _
  unfold encodeU
  simp (disch := decide) only [slice_low, slice_self]

theorem encodeU_slice_7 (imm : BitVec 20) (rd : Reg) (op : BitVec 7) :
    (encodeU imm rd op).extractLsb' 7 5 = rd := by
  change BitVec.extractLsb' (n := 20 + 5 + 7) 7 5 _ = _
  unfold encodeU
  simp (disch := decide) only [slice_low, slice_high, Nat.reduceSub, slice_self]

theorem encodeU_slice_12 (imm : BitVec 20) (rd : Reg) (op : BitVec 7) :
    (encodeU imm rd op).extractLsb' 12 20 = imm := by
  change BitVec.extractLsb' (n := 20 + 5 + 7) 12 20 _ = _
  unfold encodeU
  simp (disch := decide) only [slice_high, Nat.reduceSub, slice_self]

/-! ### J format -/

theorem encodeJ_slice_0 (imm : BitVec 21) (rd : Reg) (op : BitVec 7) :
    (encodeJ imm rd op).extractLsb' 0 7 = op := by
  change BitVec.extractLsb' (n := 1 + 10 + 1 + 8 + 5 + 7) 0 7 _ = _
  unfold encodeJ
  simp (disch := decide) only [slice_low, slice_self]

theorem encodeJ_slice_7 (imm : BitVec 21) (rd : Reg) (op : BitVec 7) :
    (encodeJ imm rd op).extractLsb' 7 5 = rd := by
  change BitVec.extractLsb' (n := 1 + 10 + 1 + 8 + 5 + 7) 7 5 _ = _
  unfold encodeJ
  simp (disch := decide) only [slice_low, slice_high, Nat.reduceSub, slice_self]

theorem encodeJ_slice_12 (imm : BitVec 21) (rd : Reg) (op : BitVec 7) :
    (encodeJ imm rd op).extractLsb' 12 8 = imm.extractLsb' 12 8 := by
  change BitVec.extractLsb' (n := 1 + 10 + 1 + 8 + 5 + 7) 12 8 _ = _
  unfold encodeJ
  simp (disch := decide) only [slice_low, slice_high, Nat.reduceSub, slice_self]

theorem encodeJ_slice_20 (imm : BitVec 21) (rd : Reg) (op : BitVec 7) :
    (encodeJ imm rd op).extractLsb' 20 1 = imm.extractLsb' 11 1 := by
  change BitVec.extractLsb' (n := 1 + 10 + 1 + 8 + 5 + 7) 20 1 _ = _
  unfold encodeJ
  simp (disch := decide) only [slice_low, slice_high, Nat.reduceSub, slice_self]

theorem encodeJ_slice_21 (imm : BitVec 21) (rd : Reg) (op : BitVec 7) :
    (encodeJ imm rd op).extractLsb' 21 10 = imm.extractLsb' 1 10 := by
  change BitVec.extractLsb' (n := 1 + 10 + 1 + 8 + 5 + 7) 21 10 _ = _
  unfold encodeJ
  simp (disch := decide) only [slice_low, slice_high, Nat.reduceSub, slice_self]

theorem encodeJ_slice_31 (imm : BitVec 21) (rd : Reg) (op : BitVec 7) :
    (encodeJ imm rd op).extractLsb' 31 1 = imm.extractLsb' 20 1 := by
  change BitVec.extractLsb' (n := 1 + 10 + 1 + 8 + 5 + 7) 31 1 _ = _
  unfold encodeJ
  simp (disch := decide) only [slice_high, Nat.reduceSub, slice_self]

/-! ### The formats put together again -/

theorem encodeR_fields (w : Word) :
    encodeR (funct7Of w) (rs2Of w) (rs1Of w) (funct3Of w) (rdOf w) (opcodeOf w) = w := by
  unfold encodeR funct7Of rs2Of rs1Of funct3Of rdOf opcodeOf
  ext i hi
  rw [BitVec.getElem_append]
  simp only [BitVec.getElem_append, BitVec.getElem_extractLsb']
  split_ifs <;> (rw [BitVec.getLsbD_eq_getElem (by omega)]; congr 1; omega)

theorem encodeI_fields (w : Word) :
    encodeI (immIOf w) (rs1Of w) (funct3Of w) (rdOf w) (opcodeOf w) = w := by
  unfold encodeI immIOf rs1Of funct3Of rdOf opcodeOf
  ext i hi
  rw [BitVec.getElem_append]
  simp only [BitVec.getElem_append, BitVec.getElem_extractLsb']
  split_ifs <;> (rw [BitVec.getLsbD_eq_getElem (by omega)]; congr 1; omega)

theorem encodeU_fields (w : Word) : encodeU (immUOf w) (rdOf w) (opcodeOf w) = w := by
  unfold encodeU immUOf rdOf opcodeOf
  ext i hi
  rw [BitVec.getElem_append]
  simp only [BitVec.getElem_append, BitVec.getElem_extractLsb']
  split_ifs <;> (rw [BitVec.getLsbD_eq_getElem (by omega)]; congr 1; omega)

theorem encodeS_fields (w : Word) :
    encodeS (immSOf w) (rs2Of w) (rs1Of w) (funct3Of w) (opcodeOf w) = w := by
  have hhi : (immSOf w).extractLsb' 5 7 = w.extractLsb' 25 7 := by
    change BitVec.extractLsb' (n := 7 + 5) 5 7 _ = _
    unfold immSOf
    simp (disch := decide) only [slice_high, Nat.reduceSub, slice_self]
  have hlo : (immSOf w).extractLsb' 0 5 = w.extractLsb' 7 5 := by
    change BitVec.extractLsb' (n := 7 + 5) 0 5 _ = _
    unfold immSOf
    simp (disch := decide) only [slice_low, slice_self]
  unfold encodeS
  rw [hhi, hlo]
  exact encodeR_fields w

theorem immBOf_slice (w : Word) :
    (immBOf w).extractLsb' 12 1 = w.extractLsb' 31 1 ∧ (immBOf w).extractLsb' 11 1 = w.extractLsb' 7 1 ∧
      (immBOf w).extractLsb' 5 6 = w.extractLsb' 25 6 ∧ (immBOf w).extractLsb' 1 4 = w.extractLsb' 8 4 ∧
      (immBOf w).getLsbD 0 = false := by
  refine ⟨?_, ?_, ?_, ?_, ?_⟩
  · change BitVec.extractLsb' (n := 1 + 1 + 6 + 4 + 1) 12 1 _ = _
    unfold immBOf
    simp (disch := decide) only [slice_high, Nat.reduceSub, slice_self]
  · change BitVec.extractLsb' (n := 1 + 1 + 6 + 4 + 1) 11 1 _ = _
    unfold immBOf
    simp (disch := decide) only [slice_low, slice_high, Nat.reduceSub, slice_self]
  · change BitVec.extractLsb' (n := 1 + 1 + 6 + 4 + 1) 5 6 _ = _
    unfold immBOf
    simp (disch := decide) only [slice_low, slice_high, Nat.reduceSub, slice_self]
  · change BitVec.extractLsb' (n := 1 + 1 + 6 + 4 + 1) 1 4 _ = _
    unfold immBOf
    simp (disch := decide) only [slice_low, slice_high, Nat.reduceSub, slice_self]
  · unfold immBOf
    rw [BitVec.getLsbD_append]
    rfl

theorem encodeB_fields (w : Word) :
    encodeB (immBOf w) (rs2Of w) (rs1Of w) (funct3Of w) (opcodeOf w) = w := by
  obtain ⟨h12, h11, h5, h1, -⟩ := immBOf_slice w
  unfold encodeB
  rw [h12, h11, h5, h1]
  unfold rs2Of rs1Of funct3Of opcodeOf
  ext i hi
  rw [BitVec.getElem_append]
  simp only [BitVec.getElem_append, BitVec.getElem_extractLsb']
  split_ifs <;> (rw [BitVec.getLsbD_eq_getElem (by omega)]; congr 1; omega)

theorem immJOf_slice (w : Word) :
    (immJOf w).extractLsb' 20 1 = w.extractLsb' 31 1 ∧ (immJOf w).extractLsb' 12 8 = w.extractLsb' 12 8 ∧
      (immJOf w).extractLsb' 11 1 = w.extractLsb' 20 1 ∧ (immJOf w).extractLsb' 1 10 = w.extractLsb' 21 10 ∧
      (immJOf w).getLsbD 0 = false := by
  refine ⟨?_, ?_, ?_, ?_, ?_⟩
  · change BitVec.extractLsb' (n := 1 + 8 + 1 + 10 + 1) 20 1 _ = _
    unfold immJOf
    simp (disch := decide) only [slice_high, Nat.reduceSub, slice_self]
  · change BitVec.extractLsb' (n := 1 + 8 + 1 + 10 + 1) 12 8 _ = _
    unfold immJOf
    simp (disch := decide) only [slice_low, slice_high, Nat.reduceSub, slice_self]
  · change BitVec.extractLsb' (n := 1 + 8 + 1 + 10 + 1) 11 1 _ = _
    unfold immJOf
    simp (disch := decide) only [slice_low, slice_high, Nat.reduceSub, slice_self]
  · change BitVec.extractLsb' (n := 1 + 8 + 1 + 10 + 1) 1 10 _ = _
    unfold immJOf
    simp (disch := decide) only [slice_low, slice_high, Nat.reduceSub, slice_self]
  · unfold immJOf
    rw [BitVec.getLsbD_append]
    rfl

theorem encodeJ_fields (w : Word) : encodeJ (immJOf w) (rdOf w) (opcodeOf w) = w := by
  obtain ⟨h20, h12, h11, h1, -⟩ := immJOf_slice w
  unfold encodeJ
  rw [h20, h12, h11, h1]
  unfold rdOf opcodeOf
  ext i hi
  rw [BitVec.getElem_append]
  simp only [BitVec.getElem_append, BitVec.getElem_extractLsb']
  split_ifs <;> (rw [BitVec.getLsbD_eq_getElem (by omega)]; congr 1; omega)

/-- A shift's selector and amount make its I-immediate (30_encoding.md R72). -/
theorem immIOf_eq_append (w : Word) : immIOf w = funct7Of w ++ rs2Of w := by
  unfold immIOf funct7Of rs2Of
  ext i hi
  rw [BitVec.getElem_append]
  simp only [BitVec.getElem_extractLsb']
  split_ifs
  · rfl
  · congr 1
    omega

end Sys2Proof
end

