-- ==== Sys2Proof/Laws/State.lean ====
section
/-! SUPPORT. What each update of a state does to each of its fields, and to the reads of registers and memory bytes. -/

namespace Sys2Proof.Machine

/-! ### x0 and the register file (10_state.md R21, R22) -/

@[simp] theorem State.x_zero (s : State) : s.x 0#5 = 0#32 := rfl

@[simp] theorem State.setX_zero (s : State) (v : Word) : s.setX 0#5 v = s := rfl

theorem Reg.toNat_pos {r : Reg} (h : r ≠ 0#5) : 0 < r.toNat := by
  rcases Nat.eq_zero_or_pos r.toNat with h0 | h0
  · exact absurd (BitVec.eq_of_toNat_eq h0) h
  · exact h0

/-- What every register reads after a register write. -/
theorem State.x_setX (s : State) (r q : Reg) (v : Word) :
    (s.setX r v).x q = if q = r ∧ q ≠ 0#5 then v else s.x q := by
  by_cases hr : r = 0#5
  · subst hr
    by_cases hq : q = 0#5 <;> simp [hq]
  · by_cases hq : q = 0#5
    · subst hq
      simp
    · have hpr := Reg.toNat_pos hr
      have hpq := Reg.toNat_pos hq
      by_cases hqr : q = r
      · subst hqr
        simp [State.setX, State.x, hq]
      · have hne : r.toNat - 1 ≠ q.toNat - 1 := fun h => hqr (BitVec.eq_of_toNat_eq (by omega))
        simp [State.setX, State.x, hr, hq, hqr, Vector.getElem_set_ne _ _ hne]

@[simp] theorem State.setX_pc (s : State) (r : Reg) (v : Word) : (s.setX r v).pc = s.pc := by
  unfold State.setX
  split <;> rfl

@[simp] theorem State.setX_mem (s : State) (r : Reg) (v : Word) : (s.setX r v).mem = s.mem := by
  unfold State.setX
  split <;> rfl

@[simp] theorem State.setX_status (s : State) (r : Reg) (v : Word) : (s.setX r v).status = s.status := by
  unfold State.setX
  split <;> rfl

@[simp] theorem State.setX_config (s : State) (r : Reg) (v : Word) : (s.setX r v).config = s.config := by
  unfold State.setX
  split <;> rfl

@[simp] theorem State.setX_byte (s : State) (r : Reg) (v : Word) (a : Nat) : (s.setX r v).byte a = s.byte a := by
  simp [State.byte]

/-! ### The pc -/

@[simp] theorem State.setPc_pc (s : State) (t : Word) : (s.setPc t).pc = t := rfl
@[simp] theorem State.setPc_regs (s : State) (t : Word) : (s.setPc t).regs = s.regs := rfl
@[simp] theorem State.setPc_mem (s : State) (t : Word) : (s.setPc t).mem = s.mem := rfl
@[simp] theorem State.setPc_status (s : State) (t : Word) : (s.setPc t).status = s.status := rfl
@[simp] theorem State.setPc_config (s : State) (t : Word) : (s.setPc t).config = s.config := rfl
@[simp] theorem State.setPc_x (s : State) (t : Word) (r : Reg) : (s.setPc t).x r = s.x r := rfl
@[simp] theorem State.setPc_byte (s : State) (t : Word) (a : Nat) : (s.setPc t).byte a = s.byte a := rfl

@[simp] theorem State.advance_pc (s : State) : s.advance.pc = s.pc + 4#32 := rfl
@[simp] theorem State.advance_regs (s : State) : s.advance.regs = s.regs := rfl
@[simp] theorem State.advance_mem (s : State) : s.advance.mem = s.mem := rfl
@[simp] theorem State.advance_status (s : State) : s.advance.status = s.status := rfl
@[simp] theorem State.advance_config (s : State) : s.advance.config = s.config := rfl
@[simp] theorem State.advance_x (s : State) (r : Reg) : s.advance.x r = s.x r := rfl
@[simp] theorem State.advance_byte (s : State) (a : Nat) : s.advance.byte a = s.byte a := rfl

/-! ### Faulting and halting: only the status changes -/

@[simp] theorem State.raise_pc (s : State) (w : Option Word) (c : FaultCause) : (s.raise w c).pc = s.pc := rfl
@[simp] theorem State.raise_regs (s : State) (w : Option Word) (c : FaultCause) : (s.raise w c).regs = s.regs := rfl
@[simp] theorem State.raise_mem (s : State) (w : Option Word) (c : FaultCause) : (s.raise w c).mem = s.mem := rfl
@[simp] theorem State.raise_config (s : State) (w : Option Word) (c : FaultCause) : (s.raise w c).config = s.config := rfl
@[simp] theorem State.raise_status (s : State) (w : Option Word) (c : FaultCause) :
    (s.raise w c).status = .faulted { cause := c, faultPc := s.pc, word := w } := rfl
@[simp] theorem State.raise_x (s : State) (w : Option Word) (c : FaultCause) (r : Reg) : (s.raise w c).x r = s.x r := rfl
@[simp] theorem State.raise_byte (s : State) (w : Option Word) (c : FaultCause) (a : Nat) : (s.raise w c).byte a = s.byte a := rfl

@[simp] theorem State.halt_pc (s : State) : s.halt.pc = s.pc := rfl
@[simp] theorem State.halt_regs (s : State) : s.halt.regs = s.regs := rfl
@[simp] theorem State.halt_mem (s : State) : s.halt.mem = s.mem := rfl
@[simp] theorem State.halt_config (s : State) : s.halt.config = s.config := rfl
@[simp] theorem State.halt_status (s : State) : s.halt.status = .halted := rfl
@[simp] theorem State.halt_x (s : State) (r : Reg) : s.halt.x r = s.x r := rfl
@[simp] theorem State.halt_byte (s : State) (a : Nat) : s.halt.byte a = s.byte a := rfl

/-! ### Replacing the memory -/

@[simp] theorem State.withMem_x (s : State) (m : Memory) (r : Reg) : State.x { s with mem := m } r = s.x r := rfl
@[simp] theorem State.withMem_byte (s : State) (m : Memory) (a : Nat) : State.byte { s with mem := m } a = m.read a := rfl

/-! ### Reset (10_state.md R34) -/

@[simp] theorem State.resetWith_x (c : Config) (r : Reg) : (State.resetWith c).x r = 0#32 := by
  unfold State.x State.resetWith
  split <;> simp

@[simp] theorem State.resetWith_byte (c : Config) (a : Nat) : (State.resetWith c).byte a = 0#8 := rfl

end Sys2Proof.Machine
end

