-- ==== Sys2Proof/Laws/Memory.lean ====
section
/-! SUPPORT. The laws of the memory: every operation keeps the canonical form, and what each byte reads after a write. -/

namespace Sys2Proof.Machine

@[simp] theorem Memory.read_nil (a : Nat) : Memory.read [] a = 0#8 := rfl

theorem Memory.wf_nil : Memory.wf [] := ⟨List.Pairwise.nil, fun _ h => by cases h⟩

theorem Memory.wf_cons (c : Host.Cell) (m : Memory) :
    Memory.wf (c :: m) ↔ c.2 ≠ 0#8 ∧ (∀ d ∈ m, c.1 < d.1) ∧ Memory.wf m := by
  simp only [Memory.wf, List.pairwise_cons, List.forall_mem_cons]
  tauto

/-- A byte below every listed address reads as an unlisted one. -/
theorem Memory.read_of_below (m : Memory) (a : Nat) (h : ∀ d ∈ m, a < d.1) : m.read a = 0#8 := by
  induction m with
  | nil => rfl
  | cons c m ih =>
    have hc : a < c.1 := h c (by simp)
    rw [Memory.read, if_neg (by omega)]
    exact ih fun d hd => h d (by simp [hd])

/-- Where a write's entries lie: every entry after it is an old one or the written one. -/
theorem Memory.mem_write (m : Memory) (a : Nat) (b : Byte) (d : Host.Cell) (h : d ∈ m.write a b) : d ∈ m ∨ d = (a, b) := by
  induction m with
  | nil =>
    unfold Memory.write at h
    split at h <;> simp_all
  | cons c m ih =>
    unfold Memory.write at h
    split_ifs at h <;> simp only [List.mem_cons] at h ⊢ <;> tauto

/-- A byte write keeps the canonical form. -/
theorem Memory.write_wf (m : Memory) (a : Nat) (b : Byte) (h : m.wf) : (m.write a b).wf := by
  induction m with
  | nil =>
    unfold Memory.write unlistedByte
    split_ifs with hb
    · exact Memory.wf_nil
    · exact (Memory.wf_cons _ _).mpr ⟨hb, by simp, Memory.wf_nil⟩
  | cons c m ih =>
    obtain ⟨hc, hlt, hm⟩ := (Memory.wf_cons c m).mp h
    unfold Memory.write unlistedByte
    split_ifs with h1 hb h2 hb
    · exact h
    · refine (Memory.wf_cons _ _).mpr ⟨hb, fun d hd => ?_, h⟩
      rcases List.mem_cons.mp hd with rfl | hd
      · exact h1
      · exact h1.trans (hlt d hd)
    · exact hm
    · exact (Memory.wf_cons _ _).mpr ⟨hb, by simpa [h2] using hlt, hm⟩
    · refine (Memory.wf_cons _ _).mpr ⟨hc, fun d hd => ?_, ih hm⟩
      rcases Memory.mem_write m a b d hd with hd | rfl
      · exact hlt d hd
      · show c.1 < a
        omega

/-- What every byte reads after a byte write. -/
theorem Memory.read_write (m : Memory) (a : Nat) (b : Byte) (h : m.wf) (q : Nat) :
    (m.write a b).read q = if q = a then b else m.read q := by
  induction m with
  | nil =>
    unfold Memory.write unlistedByte
    by_cases hb : b = 0#8
    · rw [if_pos hb, Memory.read_nil]
      split <;> simp_all
    · rw [if_neg hb]
      simp only [Memory.read, unlistedByte, eq_comm]
  | cons c m ih =>
    obtain ⟨hc, hlt, hm⟩ := (Memory.wf_cons c m).mp h
    have hbelow : ∀ p, p ≤ c.1 → Memory.read m p = 0#8 := fun p hp =>
      Memory.read_of_below m p fun d hd => lt_of_le_of_lt hp (hlt d hd)
    unfold Memory.write unlistedByte
    rcases lt_trichotomy a c.1 with hac | hac | hac
    · rw [if_pos hac]
      have hself : Memory.read (c :: m) a = 0#8 := by
        rw [Memory.read, if_neg (by omega), hbelow a (by omega)]
      by_cases hb : b = 0#8
      · rw [if_pos hb]
        split
        · rename_i hq
          rw [hq, hself, hb]
        · rfl
      · rw [if_neg hb, Memory.read]
        simp only [eq_comm]
    · rw [if_neg (by omega), if_pos hac]
      by_cases hb : b = 0#8
      · rw [if_pos hb, Memory.read]
        by_cases hq : q = a
        · rw [if_pos hq, hq, hbelow a (by omega), hb]
        · rw [if_neg hq, if_neg (by omega)]
      · rw [if_neg hb, Memory.read, Memory.read]
        by_cases hq : q = a
        · rw [if_pos hq.symm, if_pos hq]
        · rw [if_neg (Ne.symm hq), if_neg hq, if_neg (by omega)]
    · rw [if_neg (by omega), if_neg (by omega), Memory.read, Memory.read, ih hm]
      by_cases hq : q = a
      · rw [if_pos hq, if_neg (by omega), if_pos hq]
      · rw [if_neg hq, if_neg hq]

/-- A write of consecutive bytes keeps the canonical form. -/
theorem Memory.writeBytes_wf (bs : List Byte) (m : Memory) (a : Nat) (h : m.wf) : (m.writeBytes a bs).wf := by
  induction bs generalizing m a with
  | nil => exact h
  | cons b bs ih => exact ih _ _ (Memory.write_wf m a b h)

/-- What every byte reads after a write of consecutive bytes. -/
theorem Memory.read_writeBytes (bs : List Byte) (m : Memory) (a : Nat) (h : m.wf) (q : Nat) :
    (m.writeBytes a bs).read q = if a ≤ q then (bs[q - a]?).getD (m.read q) else m.read q := by
  induction bs generalizing m a with
  | nil => simp [Memory.writeBytes]
  | cons b bs ih =>
    rw [Memory.writeBytes, ih _ _ (Memory.write_wf m a b h), Memory.read_write m a b h]
    rcases lt_trichotomy q a with hq | hq | hq
    · rw [if_neg (by omega), if_neg (by omega), if_neg (by omega)]
    · rw [if_neg (by omega), if_pos hq, if_pos (by omega), hq, Nat.sub_self]
      rfl
    · rw [if_pos (by omega), if_neg (by omega), if_pos (by omega), show q - a = (q - (a + 1)) + 1 by omega]
      rfl

/-- Where the entries of a write of consecutive bytes lie. -/
theorem Memory.mem_writeBytes (bs : List Byte) (m : Memory) (a : Nat) (d : Host.Cell) (h : d ∈ m.writeBytes a bs) :
    d ∈ m ∨ (a ≤ d.1 ∧ d.1 < a + bs.length) := by
  induction bs generalizing m a with
  | nil => exact .inl h
  | cons b bs ih =>
    rcases ih _ _ h with h | h
    · rcases Memory.mem_write m a b d h with h | rfl
      · exact .inl h
      · exact .inr ⟨le_rfl, by simp⟩
    · exact .inr ⟨by omega, by simp only [List.length_cons]; omega⟩

/-- Reset memory has the canonical form. -/
theorem Memory.resetWith_wf (c : Config) : (State.resetWith c).mem.wf := Memory.wf_nil

/-! ### The access operations of a state -/

theorem State.read32_in (s : State) (a : Word) (h : inBounds s.config a 4) :
    s.read32 a =
      some (wordOfBytes (s.byte a.toNat) (s.byte (a.toNat + 1)) (s.byte (a.toNat + 2)) (s.byte (a.toNat + 3))) :=
  if_pos h

theorem State.read32_out (s : State) (a : Word) (h : ¬ inBounds s.config a 4) : s.read32 a = none := if_neg h

/-- A read depends on the parameters and the memory alone. -/
theorem State.read32_congr (s t : State) (a : Word) (hc : t.config = s.config) (hm : t.mem = s.mem) :
    t.read32 a = s.read32 a := by
  unfold State.read32 State.byte
  rw [hc, hm]

@[simp] theorem length_bytesOfWord (w : Word) : (bytesOfWord w).length = 4 := rfl

@[simp] theorem length_storeBytes (n : Width) (v : Word) : (storeBytes n v).length = n.bytes := by
  cases n <;> rfl

/-- Everything a memory write can do: it is in bounds and only the memory changes. -/
theorem State.writeAll_eq_some (s t : State) (a : Word) (bs : List Byte) (h : s.writeAll a bs = some t) :
    inBounds s.config a bs.length ∧ t = { s with mem := s.mem.writeBytes a.toNat bs } := by
  unfold State.writeAll at h
  split at h
  · exact ⟨‹_›, (Option.some.inj h).symm⟩
  · cases h

theorem State.writeAll_in (s : State) (a : Word) (bs : List Byte) (h : inBounds s.config a bs.length) :
    s.writeAll a bs = some { s with mem := s.mem.writeBytes a.toNat bs } := if_pos h

theorem State.writeAll_out (s : State) (a : Word) (bs : List Byte) (h : ¬ inBounds s.config a bs.length) :
    s.writeAll a bs = none := if_neg h

theorem State.write_in (s : State) (a : Word) (n : Width) (v : Word) (h : inBounds s.config a n.bytes) :
    s.write a n v = some { s with mem := s.mem.writeBytes a.toNat (storeBytes n v) } :=
  State.writeAll_in s a _ (by rwa [length_storeBytes])

theorem State.write_out (s : State) (a : Word) (n : Width) (v : Word) (h : ¬ inBounds s.config a n.bytes) :
    s.write a n v = none :=
  State.writeAll_out s a _ (by rwa [length_storeBytes])

/-- The bytes of a word make the word again. -/
theorem wordOfBytes_bytes (w : Word) :
    wordOfBytes (w.extractLsb' 0 8) (w.extractLsb' 8 8) (w.extractLsb' 16 8) (w.extractLsb' 24 8) = w := by
  unfold wordOfBytes
  ext i hi
  simp only [BitVec.getElem_append, BitVec.getElem_extractLsb']
  split_ifs <;> (rw [BitVec.getLsbD_eq_getElem (by omega)]; congr 1; omega)

end Sys2Proof.Machine
end

