-- ==== Sys2Proof/Laws/Ops.lean ====
section
/-! SUPPORT. One lemma per shared operation: what `retire` makes of each effect, and that it always completes. -/

namespace Sys2Proof.Machine

theorem complete_eq (i : Instr) (e : Effect) (s : State) :
    complete i e s = .next (retire (encode s.config.exitCsr i) e s) := rfl

@[simp] theorem retire_writeRd (w : Word) (rd : Reg) (v : Word) (s : State) :
    retire w (.writeRd rd v) s = (s.setX rd v).advance := rfl

@[simp] theorem retire_jump (w : Word) (rd : Reg) (t : Word) (s : State) :
    retire w (.jump rd t) s = (s.setX rd s.nextPc).setPc t := rfl

@[simp] theorem retire_branch (w : Word) (taken : Bool) (t : Word) (s : State) :
    retire w (.branch taken t) s = s.setPc (if taken then t else s.nextPc) := rfl

@[simp] theorem retire_next (w : Word) (s : State) : retire w .next s = s.advance := rfl

@[simp] theorem retire_halt (w : Word) (s : State) : retire w .halt s = s.halt := rfl

@[simp] theorem retire_fault (w : Word) (c : FaultCause) (s : State) : retire w (.fault c) s = s.raise (some w) c := rfl

theorem retire_load_in (w : Word) (rd : Reg) (a : Word) (n : Width) (sg : Bool) (s : State) (h : inBounds s.config a 4) :
    retire w (.load rd a n sg) s =
      (s.setX rd (loadExtend n sg
        (wordOfBytes (s.byte a.toNat) (s.byte (a.toNat + 1)) (s.byte (a.toNat + 2)) (s.byte (a.toNat + 3))))).advance := by
  simp only [retire, State.read32_in s a h]

theorem retire_load_out (w : Word) (rd : Reg) (a : Word) (n : Width) (sg : Bool) (s : State) (h : ¬ inBounds s.config a 4) :
    retire w (.load rd a n sg) s = s.raise (some w) (.outOfBounds a .word) := by
  simp only [retire, State.read32_out s a h]

theorem retire_store_in (w : Word) (a : Word) (n : Width) (v : Word) (s : State) (h : inBounds s.config a n.bytes) :
    retire w (.store a n v) s = ({ s with mem := s.mem.writeBytes a.toNat (storeBytes n v) } : State).advance := by
  simp only [retire, State.write_in s a n v h]

theorem retire_store_out (w : Word) (a : Word) (n : Width) (v : Word) (s : State) (h : ¬ inBounds s.config a n.bytes) :
    retire w (.store a n v) s = s.raise (some w) (.outOfBounds a n) := by
  simp only [retire, State.write_out s a n v h]

/-- Everything `retire` can do to a state, by effect: the two memory effects split at the bounds check. -/
theorem retire_cases (w : Word) (e : Effect) (s : State) :
    (∃ rd v, e = .writeRd rd v ∧ retire w e s = (s.setX rd v).advance) ∨
    (∃ rd t, e = .jump rd t ∧ retire w e s = (s.setX rd s.nextPc).setPc t) ∨
    (∃ taken t, e = .branch taken t ∧ retire w e s = s.setPc (if taken then t else s.nextPc)) ∨
    (∃ rd a n sg raw, e = .load rd a n sg ∧ s.read32 a = some raw ∧
      retire w e s = (s.setX rd (loadExtend n sg raw)).advance) ∨
    (∃ rd a n sg, e = .load rd a n sg ∧ ¬ inBounds s.config a 4 ∧
      retire w e s = s.raise (some w) (.outOfBounds a .word)) ∨
    (∃ a n v, e = .store a n v ∧ inBounds s.config a n.bytes ∧
      retire w e s = ({ s with mem := s.mem.writeBytes a.toNat (storeBytes n v) } : State).advance) ∨
    (∃ a n v, e = .store a n v ∧ ¬ inBounds s.config a n.bytes ∧
      retire w e s = s.raise (some w) (.outOfBounds a n)) ∨
    (e = .next ∧ retire w e s = s.advance) ∨
    (e = .halt ∧ retire w e s = s.halt) ∨
    (∃ c, e = .fault c ∧ retire w e s = s.raise (some w) c) := by
  cases e with
  | writeRd rd v => exact .inl ⟨rd, v, rfl, rfl⟩
  | jump rd t => exact .inr (.inl ⟨rd, t, rfl, rfl⟩)
  | branch taken t => exact .inr (.inr (.inl ⟨taken, t, rfl, rfl⟩))
  | load rd a n sg =>
    by_cases h : inBounds s.config a 4
    · exact .inr (.inr (.inr (.inl ⟨rd, a, n, sg, _, rfl, State.read32_in s a h, retire_load_in w rd a n sg s h⟩)))
    · exact .inr (.inr (.inr (.inr (.inl ⟨rd, a, n, sg, rfl, h, retire_load_out w rd a n sg s h⟩))))
  | store a n v =>
    by_cases h : inBounds s.config a n.bytes
    · exact .inr (.inr (.inr (.inr (.inr (.inl ⟨a, n, v, rfl, h, retire_store_in w a n v s h⟩)))))
    · exact .inr (.inr (.inr (.inr (.inr (.inr (.inl ⟨a, n, v, rfl, h, retire_store_out w a n v s h⟩))))))
  | next => exact .inr (.inr (.inr (.inr (.inr (.inr (.inr (.inl ⟨rfl, rfl⟩)))))))
  | halt => exact .inr (.inr (.inr (.inr (.inr (.inr (.inr (.inr (.inl ⟨rfl, rfl⟩))))))))
  | fault c => exact .inr (.inr (.inr (.inr (.inr (.inr (.inr (.inr (.inr ⟨c, rfl, rfl⟩))))))))

/-- No effect touches the parameters. -/
@[simp] theorem retire_config (w : Word) (e : Effect) (s : State) : (retire w e s).config = s.config := by
  rcases retire_cases w e s with ⟨_, _, _, h⟩ | ⟨_, _, _, h⟩ | ⟨_, _, _, h⟩ | ⟨_, _, _, _, _, _, _, h⟩ |
    ⟨_, _, _, _, _, _, h⟩ | ⟨_, _, _, _, _, h⟩ | ⟨_, _, _, _, _, h⟩ | ⟨_, h⟩ | ⟨_, h⟩ | ⟨_, _, h⟩ <;> simp [h]

/-- Every effect keeps the canonical form of the memory. -/
theorem retire_mem_wf (w : Word) (e : Effect) (s : State) (hwf : s.mem.wf) : (retire w e s).mem.wf := by
  rcases retire_cases w e s with ⟨_, _, _, h⟩ | ⟨_, _, _, h⟩ | ⟨_, _, _, h⟩ | ⟨_, _, _, _, _, _, _, h⟩ |
    ⟨_, _, _, _, _, _, h⟩ | ⟨_, _, _, _, _, h⟩ | ⟨_, _, _, _, _, h⟩ | ⟨_, h⟩ | ⟨_, h⟩ | ⟨_, _, h⟩ <;>
    (rw [h]; first | simpa using hwf | exact Memory.writeBytes_wf _ _ _ hwf)

end Sys2Proof.Machine
end

