-- ==== Sys2Proof/Laws/PerInstr.lean ====
section
/-! SUPPORT. For every instruction: its encoding has the opcode of its own class (30_encoding.md R74). -/

namespace Sys2Proof.Laws.EncodedClass

/-- The opcode class each instruction belongs to (30_encoding.md R74 to R82). -/
def classOf : Instr → OpClass
  | .add .. => .op
  | .sub .. => .op
  | .sll .. => .op
  | .slt .. => .op
  | .sltu .. => .op
  | .xor .. => .op
  | .srl .. => .op
  | .sra .. => .op
  | .or .. => .op
  | .and .. => .op
  | .addi .. => .imm
  | .slti .. => .imm
  | .sltiu .. => .imm
  | .xori .. => .imm
  | .ori .. => .imm
  | .andi .. => .imm
  | .slli .. => .imm
  | .srli .. => .imm
  | .srai .. => .imm
  | .lui .. => .lui
  | .auipc .. => .auipc
  | .jal .. => .jal
  | .jalr .. => .jalr
  | .beq .. => .branch
  | .bne .. => .branch
  | .blt .. => .branch
  | .bge .. => .branch
  | .bltu .. => .branch
  | .bgeu .. => .branch
  | .lb .. => .load
  | .lh .. => .load
  | .lw .. => .load
  | .lbu .. => .load
  | .lhu .. => .load
  | .sb .. => .store
  | .sh .. => .store
  | .sw .. => .store
  | .fence .. => .miscFence
  | .fenceI .. => .miscFence
  | .ecall .. => .system
  | .csrrwExit .. => .system
  | .csrrw .. => .system
  | .csrrs .. => .system
  | .csrrc .. => .system
  | .csrrwi .. => .system
  | .csrrsi .. => .system
  | .csrrci .. => .system

/-- Whatever `EXIT_CSR` is, the encoded word selects the instruction's class. -/
def Statement (i : Instr) : Prop :=
  ∀ exitCsr, opcodeClass (opcodeOf (encode exitCsr i)) = some (classOf i)

theorem add (rd rs1 rs2 : Reg) : Statement (.add rd rs1 rs2) := fun _ => congrArg opcodeClass (encodeR_slice_0 ..)

theorem sub (rd rs1 rs2 : Reg) : Statement (.sub rd rs1 rs2) := fun _ => congrArg opcodeClass (encodeR_slice_0 ..)

theorem sll (rd rs1 rs2 : Reg) : Statement (.sll rd rs1 rs2) := fun _ => congrArg opcodeClass (encodeR_slice_0 ..)

theorem slt (rd rs1 rs2 : Reg) : Statement (.slt rd rs1 rs2) := fun _ => congrArg opcodeClass (encodeR_slice_0 ..)

theorem sltu (rd rs1 rs2 : Reg) : Statement (.sltu rd rs1 rs2) := fun _ => congrArg opcodeClass (encodeR_slice_0 ..)

theorem xor (rd rs1 rs2 : Reg) : Statement (.xor rd rs1 rs2) := fun _ => congrArg opcodeClass (encodeR_slice_0 ..)

theorem srl (rd rs1 rs2 : Reg) : Statement (.srl rd rs1 rs2) := fun _ => congrArg opcodeClass (encodeR_slice_0 ..)

theorem sra (rd rs1 rs2 : Reg) : Statement (.sra rd rs1 rs2) := fun _ => congrArg opcodeClass (encodeR_slice_0 ..)

theorem or (rd rs1 rs2 : Reg) : Statement (.or rd rs1 rs2) := fun _ => congrArg opcodeClass (encodeR_slice_0 ..)

theorem and (rd rs1 rs2 : Reg) : Statement (.and rd rs1 rs2) := fun _ => congrArg opcodeClass (encodeR_slice_0 ..)

theorem addi (rd rs1 : Reg) (imm : BitVec 12) : Statement (.addi rd rs1 imm) := fun _ => congrArg opcodeClass (encodeI_slice_0 ..)

theorem slti (rd rs1 : Reg) (imm : BitVec 12) : Statement (.slti rd rs1 imm) := fun _ => congrArg opcodeClass (encodeI_slice_0 ..)

theorem sltiu (rd rs1 : Reg) (imm : BitVec 12) : Statement (.sltiu rd rs1 imm) := fun _ => congrArg opcodeClass (encodeI_slice_0 ..)

theorem xori (rd rs1 : Reg) (imm : BitVec 12) : Statement (.xori rd rs1 imm) := fun _ => congrArg opcodeClass (encodeI_slice_0 ..)

theorem ori (rd rs1 : Reg) (imm : BitVec 12) : Statement (.ori rd rs1 imm) := fun _ => congrArg opcodeClass (encodeI_slice_0 ..)

theorem andi (rd rs1 : Reg) (imm : BitVec 12) : Statement (.andi rd rs1 imm) := fun _ => congrArg opcodeClass (encodeI_slice_0 ..)

theorem slli (rd rs1 : Reg) (shamt : BitVec 5) : Statement (.slli rd rs1 shamt) := fun _ => congrArg opcodeClass (encodeR_slice_0 ..)

theorem srli (rd rs1 : Reg) (shamt : BitVec 5) : Statement (.srli rd rs1 shamt) := fun _ => congrArg opcodeClass (encodeR_slice_0 ..)

theorem srai (rd rs1 : Reg) (shamt : BitVec 5) : Statement (.srai rd rs1 shamt) := fun _ => congrArg opcodeClass (encodeR_slice_0 ..)

theorem lui (rd : Reg) (imm : BitVec 20) : Statement (.lui rd imm) := fun _ => congrArg opcodeClass (encodeU_slice_0 ..)

theorem auipc (rd : Reg) (imm : BitVec 20) : Statement (.auipc rd imm) := fun _ => congrArg opcodeClass (encodeU_slice_0 ..)

theorem jal (rd : Reg) (imm : BitVec 21) : Statement (.jal rd imm) := fun _ => congrArg opcodeClass (encodeJ_slice_0 ..)

theorem jalr (rd rs1 : Reg) (imm : BitVec 12) : Statement (.jalr rd rs1 imm) := fun _ => congrArg opcodeClass (encodeI_slice_0 ..)

theorem beq (rs1 rs2 : Reg) (imm : BitVec 13) : Statement (.beq rs1 rs2 imm) := fun _ => congrArg opcodeClass (encodeB_slice_0 ..)

theorem bne (rs1 rs2 : Reg) (imm : BitVec 13) : Statement (.bne rs1 rs2 imm) := fun _ => congrArg opcodeClass (encodeB_slice_0 ..)

theorem blt (rs1 rs2 : Reg) (imm : BitVec 13) : Statement (.blt rs1 rs2 imm) := fun _ => congrArg opcodeClass (encodeB_slice_0 ..)

theorem bge (rs1 rs2 : Reg) (imm : BitVec 13) : Statement (.bge rs1 rs2 imm) := fun _ => congrArg opcodeClass (encodeB_slice_0 ..)

theorem bltu (rs1 rs2 : Reg) (imm : BitVec 13) : Statement (.bltu rs1 rs2 imm) := fun _ => congrArg opcodeClass (encodeB_slice_0 ..)

theorem bgeu (rs1 rs2 : Reg) (imm : BitVec 13) : Statement (.bgeu rs1 rs2 imm) := fun _ => congrArg opcodeClass (encodeB_slice_0 ..)

theorem lb (rd rs1 : Reg) (imm : BitVec 12) : Statement (.lb rd rs1 imm) := fun _ => congrArg opcodeClass (encodeI_slice_0 ..)

theorem lh (rd rs1 : Reg) (imm : BitVec 12) : Statement (.lh rd rs1 imm) := fun _ => congrArg opcodeClass (encodeI_slice_0 ..)

theorem lw (rd rs1 : Reg) (imm : BitVec 12) : Statement (.lw rd rs1 imm) := fun _ => congrArg opcodeClass (encodeI_slice_0 ..)

theorem lbu (rd rs1 : Reg) (imm : BitVec 12) : Statement (.lbu rd rs1 imm) := fun _ => congrArg opcodeClass (encodeI_slice_0 ..)

theorem lhu (rd rs1 : Reg) (imm : BitVec 12) : Statement (.lhu rd rs1 imm) := fun _ => congrArg opcodeClass (encodeI_slice_0 ..)

theorem sb (rs1 rs2 : Reg) (imm : BitVec 12) : Statement (.sb rs1 rs2 imm) := fun _ => congrArg opcodeClass (encodeS_slice_0 ..)

theorem sh (rs1 rs2 : Reg) (imm : BitVec 12) : Statement (.sh rs1 rs2 imm) := fun _ => congrArg opcodeClass (encodeS_slice_0 ..)

theorem sw (rs1 rs2 : Reg) (imm : BitVec 12) : Statement (.sw rs1 rs2 imm) := fun _ => congrArg opcodeClass (encodeS_slice_0 ..)

theorem fence (rd rs1 : Reg) (imm : BitVec 12) : Statement (.fence rd rs1 imm) := fun _ => congrArg opcodeClass (encodeI_slice_0 ..)

theorem fenceI (rd rs1 : Reg) (imm : BitVec 12) : Statement (.fenceI rd rs1 imm) := fun _ => congrArg opcodeClass (encodeI_slice_0 ..)

theorem ecall (rd rs1 : Reg) (imm : BitVec 12) : Statement (.ecall rd rs1 imm) := fun _ => congrArg opcodeClass (encodeI_slice_0 ..)

theorem csrrwExit (rd rs1 : Reg) : Statement (.csrrwExit rd rs1) := fun _ => congrArg opcodeClass (encodeI_slice_0 ..)

theorem csrrw (rd rs1 : Reg) (csr : BitVec 12) : Statement (.csrrw rd rs1 csr) := fun _ => congrArg opcodeClass (encodeI_slice_0 ..)

theorem csrrs (rd rs1 : Reg) (csr : BitVec 12) : Statement (.csrrs rd rs1 csr) := fun _ => congrArg opcodeClass (encodeI_slice_0 ..)

theorem csrrc (rd rs1 : Reg) (csr : BitVec 12) : Statement (.csrrc rd rs1 csr) := fun _ => congrArg opcodeClass (encodeI_slice_0 ..)

theorem csrrwi (rd : Reg) (uimm : BitVec 5) (csr : BitVec 12) : Statement (.csrrwi rd uimm csr) := fun _ => congrArg opcodeClass (encodeI_slice_0 ..)

theorem csrrsi (rd : Reg) (uimm : BitVec 5) (csr : BitVec 12) : Statement (.csrrsi rd uimm csr) := fun _ => congrArg opcodeClass (encodeI_slice_0 ..)

theorem csrrci (rd : Reg) (uimm : BitVec 5) (csr : BitVec 12) : Statement (.csrrci rd uimm csr) := fun _ => congrArg opcodeClass (encodeI_slice_0 ..)

end Sys2Proof.Laws.EncodedClass
end

