-- ==== Sys2Proof/Laws/Session.lean ====
section
/-! SUPPORT. What a host operation and a host move can do, each said once. -/

namespace Sys2Proof.Machine

theorem loadSegment_in (a : Word) (bs : List Byte) (s : State) (h : inBounds s.config a bs.length) :
    loadSegment a bs s = .ok { s with mem := s.mem.writeBytes a.toNat bs } := by
  rw [loadSegment, State.writeAll_in s a bs h]

theorem loadSegment_out (a : Word) (bs : List Byte) (s : State) (h : ¬ inBounds s.config a bs.length) :
    loadSegment a bs s = .error { addr := a, len := bs.length } := by
  rw [loadSegment, State.writeAll_out s a bs h]

/-- Everything a load segment that succeeds can do. -/
theorem loadSegment_eq_ok (a : Word) (bs : List Byte) (s t : State) (h : loadSegment a bs s = .ok t) :
    inBounds s.config a bs.length ∧ t = { s with mem := s.mem.writeBytes a.toNat bs } := by
  by_cases hb : inBounds s.config a bs.length
  · rw [loadSegment_in a bs s hb] at h
    exact ⟨hb, (Except.ok.inj h).symm⟩
  · rw [loadSegment_out a bs s hb] at h
    cases h

@[simp] theorem seedPc_pc (p : Word) (s : State) : (seedPc p s).pc = p := rfl
@[simp] theorem seedPc_mem (p : Word) (s : State) : (seedPc p s).mem = s.mem := rfl
@[simp] theorem seedPc_status (p : Word) (s : State) : (seedPc p s).status = s.status := rfl
@[simp] theorem seedPc_config (p : Word) (s : State) : (seedPc p s).config = s.config := rfl
@[simp] theorem seedPc_x (p : Word) (s : State) (r : Reg) : (seedPc p s).x r = s.x r := rfl
@[simp] theorem seedPc_byte (p : Word) (s : State) (a : Nat) : (seedPc p s).byte a = s.byte a := rfl

theorem hostMove_eq_some (m : HostMove) (h k : Session) (r : HostReply) :
    hostMove m h = some (k, r) ↔ h.allows m = true ∧ h.perform m = (k, r) := by
  unfold hostMove
  split_ifs with ha <;> simp [ha]

/-- Everything an allowed move can do to the core and the phase: nothing, reset, one load segment, the pc seed, or one step. -/
theorem hostMove_cases (m : HostMove) (h k : Session) (r : HostReply) (hm : hostMove m h = some (k, r)) :
    (k = h ∧ m ≠ .reset) ∨
    (m = .reset ∧ k = { core := hostReset h.core, phase := .loading }) ∨
    (∃ a bs t, m = .load a bs ∧ (h.phase = .loading ∨ h.phase = .seeded) ∧ loadSegment a bs h.core = .ok t ∧ k = { h with core := t }) ∨
    (∃ p, m = .seed p ∧ h.phase = .loading ∧ k = { core := seedPc p h.core, phase := .seeded }) ∨
    (∃ t, m = .step ∧ h.phase ≠ .unreset ∧ h.core.status = .running ∧ step h.core = .next t ∧
      k = { core := t, phase := .stepping }) := by
  obtain ⟨ha, hp⟩ := (hostMove_eq_some m h k r).mp hm
  cases m <;> simp only [Session.allows, Session.perform, decide_eq_true_eq] at ha hp
  case reset =>
    cases hp
    exact .inr (.inl ⟨rfl, rfl⟩)
  case load a bs =>
    split at hp <;> cases hp
    · exact .inr (.inr (.inl ⟨a, bs, _, rfl, ha, ‹_›, rfl⟩))
    · exact .inl ⟨rfl, by simp⟩
  case seed p =>
    cases hp
    exact .inr (.inr (.inr (.inl ⟨p, rfl, ha, rfl⟩)))
  case step =>
    split at hp <;> cases hp
    · exact .inr (.inr (.inr (.inr ⟨_, rfl, ha.1, ha.2, ‹_›, rfl⟩)))
    · exact .inl ⟨rfl, by simp⟩
    · exact .inl ⟨rfl, by simp⟩
  all_goals
    cases hp
    exact .inl ⟨rfl, by simp⟩

@[simp] theorem hostMoves_nil (h : Session) : hostMoves [] h = some h := rfl

theorem hostMoves_cons (m : HostMove) (ms : List HostMove) (h k' : Session) :
    hostMoves (m :: ms) h = some k' ↔ ∃ k r, hostMove m h = some (k, r) ∧ hostMoves ms k = some k' := by
  rw [hostMoves]
  cases hostMove m h with
  | none => simp
  | some kr =>
    constructor
    · exact fun hk => ⟨kr.1, kr.2, rfl, hk⟩
    · rintro ⟨_, _, hm, hk⟩
      cases hm
      exact hk

end Sys2Proof.Machine
end

