-- ==== Sys2Proof/Laws/Step.lean ====
section
/-! SUPPORT. What a step can do, said once: the inversion of `step`, and that every meaning is one effect written back. -/

namespace Sys2Proof.Machine

/-- A step that answers a next state was enabled, and ended at the fetch, at the decoder or in the instruction's meaning. -/
theorem step_cases (s t : State) (h : step s = .next t) :
    s.status = .running ∧
      ((fetch s = none ∧ t = fetchFault s) ∨
        (∃ w e, fetch s = some w ∧ decode s.config.exitCsr w = .error e ∧ t = decodeFault s w e) ∨
        (∃ w i, fetch s = some w ∧ decode s.config.exitCsr w = .ok i ∧ exec i s = .next t)) := by
  unfold step at h
  split at h
  · cases h
  · cases h
  · refine ⟨‹_›, ?_⟩
    split at h
    · exact .inl ⟨‹_›, (Host.Outcome.next.inj h).symm⟩
    · split at h
      · exact .inr (.inl ⟨_, _, ‹_›, ‹_›, (Host.Outcome.next.inj h).symm⟩)
      · exact .inr (.inr ⟨_, _, ‹_›, ‹_›, h⟩)

theorem step_fetch_none (s : State) (hr : s.status = .running) (hf : fetch s = none) : step s = .next (fetchFault s) := by
  simp only [step, hr, hf]

theorem step_decode_error (s : State) (w : Word) (e : DecodeError) (hr : s.status = .running) (hf : fetch s = some w)
    (hd : decode s.config.exitCsr w = .error e) : step s = .next (decodeFault s w e) := by
  simp only [step, hr, hf, hd]

/-- Every meaning is one effect of its own instruction, written back; so it always answers a next state. -/
theorem exec_is_retire (i : Instr) (s : State) : ∃ e, exec i s = .next (retire (encode s.config.exitCsr i) e s) := by
  cases i <;> exact ⟨_, rfl⟩

/-- No instruction changes the parameters. -/
theorem exec_config (i : Instr) (s t : State) (h : exec i s = .next t) : t.config = s.config := by
  obtain ⟨e, he⟩ := exec_is_retire i s
  rw [he] at h
  cases h
  simp

/-- Every instruction keeps the canonical form of the memory. -/
theorem exec_mem_wf (i : Instr) (s t : State) (hwf : s.mem.wf) (h : exec i s = .next t) : t.mem.wf := by
  obtain ⟨e, he⟩ := exec_is_retire i s
  rw [he] at h
  cases h
  exact retire_mem_wf _ _ _ hwf

end Sys2Proof.Machine
end

