-- ==== Sys2Proof/Tests/Slice0.lean ====
section
/-! SUPPORT. Tests. Expected results are the spec's: the words are written out field by field from 30_encoding.md, the steps are rows of
95_test_vectors.md (L2.<table> row <n>). The witnesses show that the hypotheses of the obligations are met, at the boundaries of their ranges. -/

namespace Sys2Proof.Tests

open Sys2Proof Sys2Proof.Machine

/-! ### WellFormed refuses what is ill-formed -/

theorem test_illFormed_jal : Instr.wellFormed referenceConfig (.jal 1#5 0x000001#21) = false := by decide

theorem test_illFormed_beq : Instr.wellFormed referenceConfig (.beq 1#5 2#5 0x0001#13) = false := by decide

theorem test_illFormed_bne : Instr.wellFormed referenceConfig (.bne 1#5 2#5 0x0001#13) = false := by decide

theorem test_illFormed_blt : Instr.wellFormed referenceConfig (.blt 1#5 2#5 0x0001#13) = false := by decide

theorem test_illFormed_bge : Instr.wellFormed referenceConfig (.bge 1#5 2#5 0x0001#13) = false := by decide

theorem test_illFormed_bltu : Instr.wellFormed referenceConfig (.bltu 1#5 2#5 0x0001#13) = false := by decide

theorem test_illFormed_bgeu : Instr.wellFormed referenceConfig (.bgeu 1#5 2#5 0x0001#13) = false := by decide

theorem test_illFormed_csrrw : Instr.wellFormed referenceConfig (.csrrw 0#5 0#5 0xC00#12) = false := by decide

/-! ### Decoding, one word written out for every constructor -/

/-- The word matches the mask and pattern of the instruction's row of spec/opcode_table.json, and decodes to `i`. -/
abbrev Decodes (w mask pattern : Word) (i : Instr) : Prop := w &&& mask = pattern ∧ decode 0xC00#12 w = .ok i

theorem test_decode_add : Decodes (0b0000000#7 ++ 0b10110#5 ++ 0b01101#5 ++ 0b000#3 ++ 0b10011#5 ++ 0b0110011#7) 0xFE00707F#32 0x00000033#32
    (.add 0b10011#5 0b01101#5 0b10110#5) := by decide

theorem test_decode_sub : Decodes (0b0100000#7 ++ 0b10110#5 ++ 0b01101#5 ++ 0b000#3 ++ 0b10011#5 ++ 0b0110011#7) 0xFE00707F#32 0x40000033#32
    (.sub 0b10011#5 0b01101#5 0b10110#5) := by decide

theorem test_decode_sll : Decodes (0b0000000#7 ++ 0b10110#5 ++ 0b01101#5 ++ 0b001#3 ++ 0b10011#5 ++ 0b0110011#7) 0xFE00707F#32 0x00001033#32
    (.sll 0b10011#5 0b01101#5 0b10110#5) := by decide

theorem test_decode_slt : Decodes (0b0000000#7 ++ 0b10110#5 ++ 0b01101#5 ++ 0b010#3 ++ 0b10011#5 ++ 0b0110011#7) 0xFE00707F#32 0x00002033#32
    (.slt 0b10011#5 0b01101#5 0b10110#5) := by decide

theorem test_decode_sltu : Decodes (0b0000000#7 ++ 0b10110#5 ++ 0b01101#5 ++ 0b011#3 ++ 0b10011#5 ++ 0b0110011#7) 0xFE00707F#32 0x00003033#32
    (.sltu 0b10011#5 0b01101#5 0b10110#5) := by decide

theorem test_decode_xor : Decodes (0b0000000#7 ++ 0b10110#5 ++ 0b01101#5 ++ 0b100#3 ++ 0b10011#5 ++ 0b0110011#7) 0xFE00707F#32 0x00004033#32
    (.xor 0b10011#5 0b01101#5 0b10110#5) := by decide

theorem test_decode_srl : Decodes (0b0000000#7 ++ 0b10110#5 ++ 0b01101#5 ++ 0b101#3 ++ 0b10011#5 ++ 0b0110011#7) 0xFE00707F#32 0x00005033#32
    (.srl 0b10011#5 0b01101#5 0b10110#5) := by decide

theorem test_decode_sra : Decodes (0b0100000#7 ++ 0b10110#5 ++ 0b01101#5 ++ 0b101#3 ++ 0b10011#5 ++ 0b0110011#7) 0xFE00707F#32 0x40005033#32
    (.sra 0b10011#5 0b01101#5 0b10110#5) := by decide

theorem test_decode_or : Decodes (0b0000000#7 ++ 0b10110#5 ++ 0b01101#5 ++ 0b110#3 ++ 0b10011#5 ++ 0b0110011#7) 0xFE00707F#32 0x00006033#32
    (.or 0b10011#5 0b01101#5 0b10110#5) := by decide

theorem test_decode_and : Decodes (0b0000000#7 ++ 0b10110#5 ++ 0b01101#5 ++ 0b111#3 ++ 0b10011#5 ++ 0b0110011#7) 0xFE00707F#32 0x00007033#32
    (.and 0b10011#5 0b01101#5 0b10110#5) := by decide

theorem test_decode_addi : Decodes (0b101001100011#12 ++ 0b01101#5 ++ 0b000#3 ++ 0b10011#5 ++ 0b0010011#7) 0x0000707F#32 0x00000013#32
    (.addi 0b10011#5 0b01101#5 0b101001100011#12) := by decide

theorem test_decode_slti : Decodes (0b101001100011#12 ++ 0b01101#5 ++ 0b010#3 ++ 0b10011#5 ++ 0b0010011#7) 0x0000707F#32 0x00002013#32
    (.slti 0b10011#5 0b01101#5 0b101001100011#12) := by decide

theorem test_decode_sltiu : Decodes (0b101001100011#12 ++ 0b01101#5 ++ 0b011#3 ++ 0b10011#5 ++ 0b0010011#7) 0x0000707F#32 0x00003013#32
    (.sltiu 0b10011#5 0b01101#5 0b101001100011#12) := by decide

theorem test_decode_xori : Decodes (0b101001100011#12 ++ 0b01101#5 ++ 0b100#3 ++ 0b10011#5 ++ 0b0010011#7) 0x0000707F#32 0x00004013#32
    (.xori 0b10011#5 0b01101#5 0b101001100011#12) := by decide

theorem test_decode_ori : Decodes (0b101001100011#12 ++ 0b01101#5 ++ 0b110#3 ++ 0b10011#5 ++ 0b0010011#7) 0x0000707F#32 0x00006013#32
    (.ori 0b10011#5 0b01101#5 0b101001100011#12) := by decide

theorem test_decode_andi : Decodes (0b101001100011#12 ++ 0b01101#5 ++ 0b111#3 ++ 0b10011#5 ++ 0b0010011#7) 0x0000707F#32 0x00007013#32
    (.andi 0b10011#5 0b01101#5 0b101001100011#12) := by decide

theorem test_decode_slli : Decodes (0b0000000#7 ++ 0b10110#5 ++ 0b01101#5 ++ 0b001#3 ++ 0b10011#5 ++ 0b0010011#7) 0xFE00707F#32 0x00001013#32
    (.slli 0b10011#5 0b01101#5 0b10110#5) := by decide

theorem test_decode_srli : Decodes (0b0000000#7 ++ 0b10110#5 ++ 0b01101#5 ++ 0b101#3 ++ 0b10011#5 ++ 0b0010011#7) 0xFE00707F#32 0x00005013#32
    (.srli 0b10011#5 0b01101#5 0b10110#5) := by decide

theorem test_decode_srai : Decodes (0b0100000#7 ++ 0b10110#5 ++ 0b01101#5 ++ 0b101#3 ++ 0b10011#5 ++ 0b0010011#7) 0xFE00707F#32 0x40005013#32
    (.srai 0b10011#5 0b01101#5 0b10110#5) := by decide

theorem test_decode_lui : Decodes (0b10110010011100001101#20 ++ 0b10011#5 ++ 0b0110111#7) 0x0000007F#32 0x00000037#32
    (.lui 0b10011#5 0b10110010011100001101#20) := by decide

theorem test_decode_auipc : Decodes (0b10110010011100001101#20 ++ 0b10011#5 ++ 0b0010111#7) 0x0000007F#32 0x00000017#32
    (.auipc 0b10011#5 0b10110010011100001101#20) := by decide

theorem test_decode_jal : Decodes (0b1#1 ++ 0b1011000111#10 ++ 0b0#1 ++ 0b01100111#8 ++ 0b10011#5 ++ 0b1101111#7) 0x0000007F#32 0x0000006F#32
    (.jal 0b10011#5 0b101100111010110001110#21) := by decide

theorem test_decode_jalr : Decodes (0b101001100011#12 ++ 0b01101#5 ++ 0b000#3 ++ 0b10011#5 ++ 0b1100111#7) 0x0000707F#32 0x00000067#32
    (.jalr 0b10011#5 0b01101#5 0b101001100011#12) := by decide

theorem test_decode_beq : Decodes (0b1#1 ++ 0b110010#6 ++ 0b10110#5 ++ 0b01101#5 ++ 0b000#3 ++ 0b0111#4 ++ 0b0#1 ++ 0b1100011#7) 0x0000707F#32 0x00000063#32
    (.beq 0b01101#5 0b10110#5 0b1011001001110#13) := by decide

theorem test_decode_bne : Decodes (0b1#1 ++ 0b110010#6 ++ 0b10110#5 ++ 0b01101#5 ++ 0b001#3 ++ 0b0111#4 ++ 0b0#1 ++ 0b1100011#7) 0x0000707F#32 0x00001063#32
    (.bne 0b01101#5 0b10110#5 0b1011001001110#13) := by decide

theorem test_decode_blt : Decodes (0b1#1 ++ 0b110010#6 ++ 0b10110#5 ++ 0b01101#5 ++ 0b100#3 ++ 0b0111#4 ++ 0b0#1 ++ 0b1100011#7) 0x0000707F#32 0x00004063#32
    (.blt 0b01101#5 0b10110#5 0b1011001001110#13) := by decide

theorem test_decode_bge : Decodes (0b1#1 ++ 0b110010#6 ++ 0b10110#5 ++ 0b01101#5 ++ 0b101#3 ++ 0b0111#4 ++ 0b0#1 ++ 0b1100011#7) 0x0000707F#32 0x00005063#32
    (.bge 0b01101#5 0b10110#5 0b1011001001110#13) := by decide

theorem test_decode_bltu : Decodes (0b1#1 ++ 0b110010#6 ++ 0b10110#5 ++ 0b01101#5 ++ 0b110#3 ++ 0b0111#4 ++ 0b0#1 ++ 0b1100011#7) 0x0000707F#32 0x00006063#32
    (.bltu 0b01101#5 0b10110#5 0b1011001001110#13) := by decide

theorem test_decode_bgeu : Decodes (0b1#1 ++ 0b110010#6 ++ 0b10110#5 ++ 0b01101#5 ++ 0b111#3 ++ 0b0111#4 ++ 0b0#1 ++ 0b1100011#7) 0x0000707F#32 0x00007063#32
    (.bgeu 0b01101#5 0b10110#5 0b1011001001110#13) := by decide

theorem test_decode_lb : Decodes (0b101001100011#12 ++ 0b01101#5 ++ 0b000#3 ++ 0b10011#5 ++ 0b0000011#7) 0x0000707F#32 0x00000003#32
    (.lb 0b10011#5 0b01101#5 0b101001100011#12) := by decide

theorem test_decode_lh : Decodes (0b101001100011#12 ++ 0b01101#5 ++ 0b001#3 ++ 0b10011#5 ++ 0b0000011#7) 0x0000707F#32 0x00001003#32
    (.lh 0b10011#5 0b01101#5 0b101001100011#12) := by decide

theorem test_decode_lw : Decodes (0b101001100011#12 ++ 0b01101#5 ++ 0b010#3 ++ 0b10011#5 ++ 0b0000011#7) 0x0000707F#32 0x00002003#32
    (.lw 0b10011#5 0b01101#5 0b101001100011#12) := by decide

theorem test_decode_lbu : Decodes (0b101001100011#12 ++ 0b01101#5 ++ 0b100#3 ++ 0b10011#5 ++ 0b0000011#7) 0x0000707F#32 0x00004003#32
    (.lbu 0b10011#5 0b01101#5 0b101001100011#12) := by decide

theorem test_decode_lhu : Decodes (0b101001100011#12 ++ 0b01101#5 ++ 0b101#3 ++ 0b10011#5 ++ 0b0000011#7) 0x0000707F#32 0x00005003#32
    (.lhu 0b10011#5 0b01101#5 0b101001100011#12) := by decide

theorem test_decode_sb : Decodes (0b1010011#7 ++ 0b10110#5 ++ 0b01101#5 ++ 0b000#3 ++ 0b00110#5 ++ 0b0100011#7) 0x0000707F#32 0x00000023#32
    (.sb 0b01101#5 0b10110#5 0b101001100110#12) := by decide

theorem test_decode_sh : Decodes (0b1010011#7 ++ 0b10110#5 ++ 0b01101#5 ++ 0b001#3 ++ 0b00110#5 ++ 0b0100011#7) 0x0000707F#32 0x00001023#32
    (.sh 0b01101#5 0b10110#5 0b101001100110#12) := by decide

theorem test_decode_sw : Decodes (0b1010011#7 ++ 0b10110#5 ++ 0b01101#5 ++ 0b010#3 ++ 0b00110#5 ++ 0b0100011#7) 0x0000707F#32 0x00002023#32
    (.sw 0b01101#5 0b10110#5 0b101001100110#12) := by decide

theorem test_decode_fence : Decodes (0b101001100011#12 ++ 0b01101#5 ++ 0b000#3 ++ 0b10011#5 ++ 0b0001111#7) 0x0000707F#32 0x0000000F#32
    (.fence 0b10011#5 0b01101#5 0b101001100011#12) := by decide

theorem test_decode_fenceI : Decodes (0b101001100011#12 ++ 0b01101#5 ++ 0b001#3 ++ 0b10011#5 ++ 0b0001111#7) 0x0000707F#32 0x0000100F#32
    (.fenceI 0b10011#5 0b01101#5 0b101001100011#12) := by decide

theorem test_decode_ecall : Decodes (0b101001100011#12 ++ 0b01101#5 ++ 0b000#3 ++ 0b10011#5 ++ 0b1110011#7) 0x0000707F#32 0x00000073#32
    (.ecall 0b10011#5 0b01101#5 0b101001100011#12) := by decide

theorem test_decode_csrrwExit : Decodes (0b110000000000#12 ++ 0b01101#5 ++ 0b001#3 ++ 0b10011#5 ++ 0b1110011#7) 0xFFF0707F#32 0xC0001073#32
    (.csrrwExit 0b10011#5 0b01101#5) := by decide

theorem test_decode_csrrw : Decodes (0b101001100011#12 ++ 0b01101#5 ++ 0b001#3 ++ 0b10011#5 ++ 0b1110011#7) 0x0000707F#32 0x00001073#32
    (.csrrw 0b10011#5 0b01101#5 0b101001100011#12) := by decide

theorem test_decode_csrrs : Decodes (0b101001100011#12 ++ 0b01101#5 ++ 0b010#3 ++ 0b10011#5 ++ 0b1110011#7) 0x0000707F#32 0x00002073#32
    (.csrrs 0b10011#5 0b01101#5 0b101001100011#12) := by decide

theorem test_decode_csrrc : Decodes (0b101001100011#12 ++ 0b01101#5 ++ 0b011#3 ++ 0b10011#5 ++ 0b1110011#7) 0x0000707F#32 0x00003073#32
    (.csrrc 0b10011#5 0b01101#5 0b101001100011#12) := by decide

theorem test_decode_csrrwi : Decodes (0b101001100011#12 ++ 0b01101#5 ++ 0b101#3 ++ 0b10011#5 ++ 0b1110011#7) 0x0000707F#32 0x00005073#32
    (.csrrwi 0b10011#5 0b01101#5 0b101001100011#12) := by decide

theorem test_decode_csrrsi : Decodes (0b101001100011#12 ++ 0b01101#5 ++ 0b110#3 ++ 0b10011#5 ++ 0b1110011#7) 0x0000707F#32 0x00006073#32
    (.csrrsi 0b10011#5 0b01101#5 0b101001100011#12) := by decide

theorem test_decode_csrrci : Decodes (0b101001100011#12 ++ 0b01101#5 ++ 0b111#3 ++ 0b10011#5 ++ 0b1110011#7) 0x0000707F#32 0x00007073#32
    (.csrrci 0b10011#5 0b01101#5 0b101001100011#12) := by decide

/-- R83 (L2.9 rows 1 to 5): words whose opcode is no class. -/
theorem test_unsupportedOpcode : decode 0xC00#12 0x00000000#32 = .error .unsupportedOpcode ∧
    decode 0xC00#12 0xFFFFFFFF#32 = .error .unsupportedOpcode ∧
    decode 0xC00#12 0x0000000B#32 = .error .unsupportedOpcode ∧
    decode 0xC00#12 0x0000202F#32 = .error .unsupportedOpcode ∧
    decode 0xC00#12 0x00000001#32 = .error .unsupportedOpcode := by decide

/-- R83 (L2.9 rows 6 to 11): reserved selectors of OP and of the IMM shifts. -/
theorem test_reserved_op_and_imm : decode 0xC00#12 0x022081B3#32 = .error .unsupportedFunct3 ∧
    decode 0xC00#12 0x402091B3#32 = .error .unsupportedFunct3 ∧
    decode 0xC00#12 0x4020C1B3#32 = .error .unsupportedFunct3 ∧
    decode 0xC00#12 0x40209193#32 = .error .unsupportedFunct3 ∧
    decode 0xC00#12 0x0200D193#32 = .error .unsupportedFunct3 ∧
    decode 0xC00#12 0x6000D193#32 = .error .unsupportedFunct3 := by decide

/-- R83 (L2.9 rows 13 to 19): reserved selectors of BRANCH, LOAD, STORE and JALR. -/
theorem test_reserved_branch_load_store_jalr : decode 0xC00#12 0x0020A463#32 = .error .unsupportedFunct3 ∧
    decode 0xC00#12 0x0020B463#32 = .error .unsupportedFunct3 ∧
    decode 0xC00#12 0x0000B283#32 = .error .unsupportedFunct3 ∧
    decode 0xC00#12 0x0000E283#32 = .error .unsupportedFunct3 ∧
    decode 0xC00#12 0x0050B023#32 = .error .unsupportedFunct3 ∧
    decode 0xC00#12 0x000010E7#32 = .error .unsupportedFunct3 := by decide

/-- R83 (L2.8 rows 3 and 22): reserved selectors of MISC-FENCE and SYSTEM. -/
theorem test_reserved_fence_and_system : decode 0xC00#12 0x0000200F#32 = .error .unsupportedFunct3 ∧
    decode 0xC00#12 0x00004073#32 = .error .unsupportedFunct3 := by decide

/-! ### One step -/

/-- A running core with the word `w` stored at `pc`, the registers `regs` and the bytes `bs` at `a`. -/
def start (pc w : Word) (regs : List (Reg × Word)) (a : Word := 0x80000100#32) (bs : List Byte := []) : State :=
  let s := regs.foldl (fun s p => s.setX p.1 p.2) (placeWord (seedPc pc State.reset) w)
  match loadSegment a bs s with
  | .ok t => t
  | .error _ => s

/-- The next state of an outcome. -/
def after : Host.Outcome State Fault Refusal → State
  | .next t => t
  | .fault _ => State.reset.halt
  | .refused _ => State.reset.halt

/-- Register `r`, the pc and the status after one step from `s`. -/
def result (s : State) (r : Reg) : Word × Word × Status :=
  ((after (step s)).x r, (after (step s)).pc, (after (step s)).status)

/-- `n` bytes of memory from `a` upward, the pc and the status after one step from `s`. -/
def stored (s : State) (a n : Nat) : List Byte × Word × Status :=
  ((List.range n).map fun k => (after (step s)).byte (a + k), (after (step s)).pc, (after (step s)).status)

/-- L2.2 row 3. -/
theorem test_add_wraps :
    result (start 0x80000000#32 0x002081B3#32 [(1#5, 0xFFFFFFFF#32), (2#5, 0x1#32)]) 3#5 = (0x0#32, 0x80000004#32, .running) := by decide

/-- L2.2 row 4. -/
theorem test_add_source_is_destination :
    result (start 0x80000000#32 0x001080B3#32 [(1#5, 0x40000001#32)]) 1#5 = (0x80000002#32, 0x80000004#32, .running) := by decide

/-- L2.2 row 7. -/
theorem test_sub_borrows :
    result (start 0x80000000#32 0x402081B3#32 [(1#5, 0x0#32), (2#5, 0x1#32)]) 3#5 = (0xFFFFFFFF#32, 0x80000004#32, .running) := by decide

/-- L2.2 row 12. -/
theorem test_sll_amount_mod_32 :
    result (start 0x80000000#32 0x002091B3#32 [(1#5, 0x1#32), (2#5, 0x21#32)]) 3#5 = (0x2#32, 0x80000004#32, .running) := by decide

/-- L2.2 row 14. -/
theorem test_slt_signed :
    result (start 0x80000000#32 0x0020A1B3#32 [(1#5, 0x80000000#32), (2#5, 0x7FFFFFFF#32)]) 3#5 = (0x1#32, 0x80000004#32, .running) := by decide

/-- L2.2 row 16. -/
theorem test_sltu_unsigned :
    result (start 0x80000000#32 0x0020B1B3#32 [(1#5, 0xFFFFFFFF#32), (2#5, 0x1#32)]) 3#5 = (0x0#32, 0x80000004#32, .running) := by decide

/-- L2.2 row 19. -/
theorem test_xor :
    result (start 0x80000000#32 0x0020C1B3#32 [(1#5, 0xFF00FF00#32), (2#5, 0xFF00FF0#32)]) 3#5 = (0xF0F0F0F0#32, 0x80000004#32, .running) := by decide

/-- L2.2 row 20. -/
theorem test_srl_fills_zero :
    result (start 0x80000000#32 0x0020D1B3#32 [(1#5, 0xF0000000#32), (2#5, 0x4#32)]) 3#5 = (0xF000000#32, 0x80000004#32, .running) := by decide

/-- L2.2 row 24. -/
theorem test_sra_copies_sign :
    result (start 0x80000000#32 0x4020D1B3#32 [(1#5, 0x80000001#32), (2#5, 0x21#32)]) 3#5 = (0xC0000000#32, 0x80000004#32, .running) := by decide

/-- L2.2 row 26. -/
theorem test_or :
    result (start 0x80000000#32 0x0020E1B3#32 [(1#5, 0xF0#32), (2#5, 0xF#32)]) 3#5 = (0xFF#32, 0x80000004#32, .running) := by decide

/-- L2.2 row 27. -/
theorem test_and :
    result (start 0x80000000#32 0x0020F1B3#32 [(1#5, 0xFF00FF00#32), (2#5, 0xFF00FF0#32)]) 3#5 = (0xF000F00#32, 0x80000004#32, .running) := by decide

/-- L2.3 row 3. -/
theorem test_addi_negative :
    result (start 0x80000000#32 0x80008193#32 [(1#5, 0x0#32)]) 3#5 = (0xFFFFF800#32, 0x80000004#32, .running) := by decide

/-- L2.3 row 5: x0 stays 0. -/
theorem test_addi_to_x0 :
    result (start 0x80000000#32 0x00500013#32 []) 0#5 = (0x0#32, 0x80000004#32, .running) := by decide

/-- L2.3 row 7. -/
theorem test_slti_signed :
    result (start 0x80000000#32 0xFFF0A193#32 [(1#5, 0x80000000#32)]) 3#5 = (0x1#32, 0x80000004#32, .running) := by decide

/-- L2.3 row 9. -/
theorem test_sltiu_extends_then_compares_unsigned :
    result (start 0x80000000#32 0xFFF0B193#32 [(1#5, 0x5#32)]) 3#5 = (0x1#32, 0x80000004#32, .running) := by decide

/-- L2.3 row 12. -/
theorem test_xori :
    result (start 0x80000000#32 0xFFF0C193#32 [(1#5, 0xFF#32)]) 3#5 = (0xFFFFFF00#32, 0x80000004#32, .running) := by decide

/-- L2.9 row 12. -/
theorem test_xori_bit_30_is_immediate :
    result (start 0x80000000#32 0x4000C193#32 [(1#5, 0x6#32)]) 3#5 = (0x406#32, 0x80000004#32, .running) := by decide

/-- L2.3 row 14. -/
theorem test_ori_negative :
    result (start 0x80000000#32 0x8000E193#32 [(1#5, 0x0#32)]) 3#5 = (0xFFFFF800#32, 0x80000004#32, .running) := by decide

/-- L2.3 row 16. -/
theorem test_andi_negative :
    result (start 0x80000000#32 0xFF00F193#32 [(1#5, 0x12345678#32)]) 3#5 = (0x12345670#32, 0x80000004#32, .running) := by decide

/-- L2.3 row 18. -/
theorem test_slli :
    result (start 0x80000000#32 0x01F09193#32 [(1#5, 0x3#32)]) 3#5 = (0x80000000#32, 0x80000004#32, .running) := by decide

/-- L2.3 row 19. -/
theorem test_srli :
    result (start 0x80000000#32 0x0040D193#32 [(1#5, 0xF0000000#32)]) 3#5 = (0xF000000#32, 0x80000004#32, .running) := by decide

/-- L2.3 row 22. -/
theorem test_srai :
    result (start 0x80000000#32 0x41F0D193#32 [(1#5, 0x80000000#32)]) 3#5 = (0xFFFFFFFF#32, 0x80000004#32, .running) := by decide

/-- L2.4 row 2. -/
theorem test_lui :
    result (start 0x80000000#32 0x123451B7#32 []) 3#5 = (0x12345000#32, 0x80000004#32, .running) := by decide

/-- L2.4 row 6. -/
theorem test_auipc_wraps :
    result (start 0x80000010#32 0x80000197#32 []) 3#5 = (0x10#32, 0x80000014#32, .running) := by decide

/-- L2.6 row 1. -/
theorem test_jal_links :
    result (start 0x80000000#32 0x010000EF#32 []) 1#5 = (0x80000004#32, 0x80000010#32, .running) := by decide

/-- L2.6 row 4. -/
theorem test_jal_most_negative :
    result (start 0x80000000#32 0x800002EF#32 []) 5#5 = (0x80000004#32, 0x7FF00000#32, .running) := by decide

/-- L2.6 row 7: the target is from the old x1. -/
theorem test_jalr_source_is_destination :
    result (start 0x80000100#32 0x000080E7#32 [(1#5, 0x80000040#32)]) 1#5 = (0x80000104#32, 0x80000040#32, .running) := by decide

/-- L2.6 row 9. -/
theorem test_jalr_keeps_bit_0 :
    result (start 0x80000100#32 0x001280E7#32 [(5#5, 0x80000200#32)]) 1#5 = (0x80000104#32, 0x80000201#32, .running) := by decide

/-- L2.5 row 3. -/
theorem test_beq_taken_backward :
    result (start 0x80000010#32 0xFE000EE3#32 []) 0#5 = (0x0#32, 0x8000000C#32, .running) := by decide

/-- L2.5 row 5. -/
theorem test_bne_not_taken :
    result (start 0x80000010#32 0xFE109CE3#32 [(1#5, 0x1#32)]) 1#5 = (0x1#32, 0x80000014#32, .running) := by decide

/-- L2.5 row 17. -/
theorem test_bne_most_negative :
    result (start 0x80002000#32 0x80009063#32 [(1#5, 0x1#32)]) 1#5 = (0x1#32, 0x80001000#32, .running) := by decide

/-- L2.5 row 6. -/
theorem test_blt_signed :
    result (start 0x80000000#32 0x0020C463#32 [(1#5, 0xFFFFFFFF#32), (2#5, 0x0#32)]) 2#5 = (0x0#32, 0x80000008#32, .running) := by decide

/-- L2.5 row 10. -/
theorem test_bge_equal :
    result (start 0x80000000#32 0x0020D463#32 [(1#5, 0x5#32), (2#5, 0x5#32)]) 1#5 = (0x5#32, 0x80000008#32, .running) := by decide

/-- L2.5 row 12. -/
theorem test_bltu_unsigned :
    result (start 0x80000000#32 0x0020E463#32 [(1#5, 0xFFFFFFFF#32), (2#5, 0x0#32)]) 2#5 = (0x0#32, 0x80000004#32, .running) := by decide

/-- L2.5 row 14. -/
theorem test_bgeu_unsigned :
    result (start 0x80000000#32 0x0020F463#32 [(1#5, 0xFFFFFFFF#32), (2#5, 0x0#32)]) 2#5 = (0x0#32, 0x80000008#32, .running) := by decide

/-- L2.7 row 1. -/
theorem test_lb_sign :
    result (start 0x80000000#32 0x00008283#32 [(1#5, 0x80000100#32)] 0x80000100#32 [0x80#8, 0xFF#8, 0x34#8, 0x12#8]) 5#5 = (0xFFFFFF80#32, 0x80000004#32, .running) := by decide

/-- L2.7 row 2. -/
theorem test_lbu_zero :
    result (start 0x80000000#32 0x0000C283#32 [(1#5, 0x80000100#32)] 0x80000100#32 [0x80#8, 0xFF#8, 0x34#8, 0x12#8]) 5#5 = (0x80#32, 0x80000004#32, .running) := by decide

/-- L2.7 row 6. -/
theorem test_lh_misaligned :
    result (start 0x80000000#32 0x00109283#32 [(1#5, 0x80000100#32)] 0x80000100#32 [0x80#8, 0xFF#8, 0x34#8, 0x12#8]) 5#5 = (0x34FF#32, 0x80000004#32, .running) := by decide

/-- L2.7 row 4. -/
theorem test_lhu_zero :
    result (start 0x80000000#32 0x0000D283#32 [(1#5, 0x80000100#32)] 0x80000100#32 [0x80#8, 0xFF#8, 0x34#8, 0x12#8]) 5#5 = (0xFF80#32, 0x80000004#32, .running) := by decide

/-- L2.7 row 7. -/
theorem test_lw_misaligned :
    result (start 0x80000000#32 0x0010A283#32 [(1#5, 0x80000100#32)] 0x80000100#32 [0x80#8, 0xFF#8, 0x34#8, 0x12#8]) 5#5 = (0x1234FF#32, 0x80000004#32, .running) := by decide

/-- L2.7 row 12: a byte load is checked over four bytes. -/
theorem test_lb_of_the_last_byte_faults :
    result (start 0x80000000#32 0x00008283#32 [(1#5, 0x8000FFFF#32), (5#5, 0x7#32)]) 5#5 = (0x7#32, 0x80000000#32, (.faulted { cause := .outOfBounds 0x8000FFFF#32 .word, faultPc := 0x80000000#32, word := some 0x00008283#32 })) := by decide

/-- L2.7 row 14. -/
theorem test_lw_below_memory_faults :
    result (start 0x80000000#32 0x0000A283#32 [(1#5, 0x7FFFFFFC#32), (5#5, 0x7#32)]) 5#5 = (0x7#32, 0x80000000#32, (.faulted { cause := .outOfBounds 0x7FFFFFFC#32 .word, faultPc := 0x80000000#32, word := some 0x0000A283#32 })) := by decide

/-- L2.7 row 19. -/
theorem test_sb_last_byte :
    stored (start 0x80000000#32 0x00508023#32 [(1#5, 0x8000FFFF#32), (5#5, 0xABCD#32)]) 0x8000FFFE 2 =
      ([0x00#8, 0xCD#8], 0x80000004#32, .running) := by decide

/-- L2.7 row 21. -/
theorem test_sh_misaligned :
    stored (start 0x80000000#32 0x005090A3#32 [(1#5, 0x80000100#32), (5#5, 0xAABBCCDD#32)]) 0x80000100 4 =
      ([0x00#8, 0xDD#8, 0xCC#8, 0x00#8], 0x80000004#32, .running) := by decide

/-- L2.7 row 22. -/
theorem test_sh_across_the_end_faults :
    stored (start 0x80000000#32 0x00509023#32 [(1#5, 0x8000FFFF#32), (5#5, 0xAABBCCDD#32)]) 0x8000FFFF 1 =
      ([0x00#8], 0x80000000#32, (.faulted { cause := .outOfBounds 0x8000FFFF#32 .half, faultPc := 0x80000000#32, word := some 0x00509023#32 })) := by decide

/-- L2.7 row 23. -/
theorem test_sw_misaligned :
    stored (start 0x80000000#32 0xFE50AFA3#32 [(1#5, 0x80000101#32), (5#5, 0xAABBCCDD#32)]) 0x800000FF 6 =
      ([0x00#8, 0xDD#8, 0xCC#8, 0xBB#8, 0xAA#8, 0x00#8], 0x80000004#32, .running) := by decide

/-- L2.7 row 25. -/
theorem test_sw_of_its_base :
    stored (start 0x80000000#32 0x0010A023#32 [(1#5, 0x80000100#32)]) 0x80000100 4 =
      ([0x00#8, 0x01#8, 0x00#8, 0x80#8], 0x80000004#32, .running) := by decide

/-- L2.8 row 1. -/
theorem test_fence :
    result (start 0x80000000#32 0x0FF0000F#32 []) 0#5 = (0x0#32, 0x80000004#32, .running) := by decide

/-- L2.8 row 2. -/
theorem test_fenceI :
    result (start 0x80000000#32 0x0000100F#32 []) 0#5 = (0x0#32, 0x80000004#32, .running) := by decide

/-- L2.8 row 4. -/
theorem test_ecall_halts :
    result (start 0x80000010#32 0x00000073#32 [(3#5, 0x1#32)]) 3#5 = (0x1#32, 0x80000010#32, .halted) := by decide

/-- L2.8 row 7. -/
theorem test_ecall_fails_unsigned :
    result (start 0x80000010#32 0x00000073#32 [(3#5, 0xFFFFFFFF#32)]) 3#5 = (0xFFFFFFFF#32, 0x80000010#32, (.faulted { cause := .testFailure 0xFFFFFFFF#32, faultPc := 0x80000010#32, word := some 0x00000073#32 })) := by decide

/-- L2.8 row 13. -/
theorem test_csrrwExit_halts :
    result (start 0x80000020#32 0xC0001073#32 []) 0#5 = (0x0#32, 0x80000020#32, .halted) := by decide

/-- L2.8 row 14. -/
theorem test_csrrw_writes_nothing :
    result (start 0x80000000#32 0x300312F3#32 [(5#5, 0x7#32), (6#5, 0x9#32)]) 5#5 = (0x7#32, 0x80000004#32, .running) := by decide

/-- L2.8 row 16. -/
theorem test_csrrs_of_the_exit_selector :
    result (start 0x80000000#32 0xC00022F3#32 [(5#5, 0x7#32)]) 5#5 = (0x7#32, 0x80000004#32, .running) := by decide

/-- L2.8 row 17. -/
theorem test_csrrc_writes_nothing :
    result (start 0x80000000#32 0x300332F3#32 [(5#5, 0x7#32), (6#5, 0x9#32)]) 5#5 = (0x7#32, 0x80000004#32, .running) := by decide

/-- L2.8 row 19. -/
theorem test_csrrwi_of_the_exit_selector :
    result (start 0x80000000#32 0xC0005073#32 []) 0#5 = (0x0#32, 0x80000004#32, .running) := by decide

/-- L2.8 row 20. -/
theorem test_csrrsi_writes_nothing :
    result (start 0x80000000#32 0x3001E2F3#32 [(5#5, 0x7#32)]) 5#5 = (0x7#32, 0x80000004#32, .running) := by decide

/-- L2.8 row 21. -/
theorem test_csrrci_writes_nothing :
    result (start 0x80000000#32 0x3001F2F3#32 [(5#5, 0x7#32)]) 5#5 = (0x7#32, 0x80000004#32, .running) := by decide

/-- L2.9 row 1: the record of a word that is no instruction. -/
theorem test_zero_word_faults : result (start 0x80000000#32 0x00000000#32 []) 0#5 =
    (0#32, 0x80000000#32, .faulted { cause := .unsupportedOpcode, faultPc := 0x80000000#32, word := some 0x00000000#32 }) := by decide

/-- L2.9 row 16: a reserved LOAD selector faults as such, at an address out of bounds too. -/
theorem test_reserved_load_out_of_bounds : (result (start 0x80000000#32 0x0000B283#32 [(1#5, 0x90000000#32)]) 5#5).2.2 =
    .faulted { cause := .unsupportedFunct3, faultPc := 0x80000000#32, word := some 0x0000B283#32 } := by decide

/-- L2.9 row 20: a fetch across the end of memory. -/
theorem test_fetch_out_of_bounds : (after (step (seedPc 0x8000FFFE#32 State.reset))).status =
    .faulted { cause := .outOfBounds 0x8000FFFE#32 .word, faultPc := 0x8000FFFE#32, word := none } := by decide

/-- L2.9 rows 22 and 23: the last word of memory and a word at an odd address are fetched. -/
theorem test_fetch_at_the_end_and_at_an_odd_address :
    result (start 0x8000FFFC#32 0x00100093#32 []) 1#5 = (1#32, 0x80010000#32, .running) ∧
    result (start 0x80000001#32 0x00100093#32 []) 1#5 = (1#32, 0x80000005#32, .running) := by decide

/-- The ordinals of the four fault kinds (60_exceptions.md R200). -/
theorem test_fault_codes : (FaultCause.outOfBounds 0#32 .word).kind.code = 0 ∧ FaultCause.unsupportedOpcode.kind.code = 1 ∧
    FaultCause.unsupportedFunct3.kind.code = 2 ∧ (FaultCause.testFailure 2#32).kind.code = 3 := by decide

/-- R224: of two overlapping segments the later wins; R227: the host's byte accessor answers inside the buffer only. -/
theorem test_segments_and_accessors :
    (match boot [(0x80000000#32, [1#8, 2#8]), (0x80000001#32, [3#8])] State.reset with
      | .ok t => (t.readByte 0x80000000#32, t.readByte 0x80000001#32, t.readByte 0x80010000#32, t.readIndex 32)
      | .error _ => (none, none, none, 0#32)) = (some 1#8, some 3#8, none, 0x80000000#32) := by decide
/-! ### Witnesses: states and operands that meet the hypotheses of the obligations -/

/-- Hypothesis of DecodeOfEncodeIsTheInstruction, at the most negative offsets and beside `EXIT_CSR`. -/
theorem test_witness_wellFormed : ∀ i ∈ [Instr.beq 31#5 0#5 0x1000#13, .jal 31#5 0x100000#21, .csrrw 0#5 0#5 0xBFF#12, .add 31#5 31#5 31#5],
    i.wellFormed referenceConfig = true := by decide

/-- Hypothesis of EncodeOfDecodeIsTheWord. -/
theorem test_witness_decode : decode referenceConfig.exitCsr 0xFFFFFFB7#32 = .ok (.lui 31#5 0xFFFFF#20) := by decide

/-- Hypothesis of the third clause of IllegalEncodingsAreExactlyThese. -/
theorem test_witness_low_bits : (0xFFFFFFFE#32).extractLsb' 0 2 ≠ 0b11#2 := by decide

/-- Hypotheses of OpcodeTableRowsDecodeAsListed not met by a test_decode theorem: the two CSRRW rows on either side of `EXIT_CSR`. -/
theorem test_witness_csrrw_rows :
    (0xC0001073#32 &&& 0x0000707F#32 = 0x00001073#32 ∧ immIOf 0xC0001073#32 = 0xC00#12) ∧
    (0xC0101073#32 &&& 0x0000707F#32 = 0x00001073#32 ∧ immIOf 0xC0101073#32 ≠ 0xC00#12) := by decide

/-- Hypotheses of ImmediatesAreAssembledBitByBit and of AluComputesTheNamedFunctions, at both ends. -/
theorem test_witness_bit_numbers : 0 < 32 ∧ 31 < 32 := by decide

/-- Hypotheses of SignAndZeroExtension at the narrowest and the full width. -/
theorem test_witness_widths : (0 < 1 ∧ 1 ≤ 32) ∧ 0 < 32 ∧ 32 ≤ 32 := by decide

/-- ADDI x1, x0, 5 at the first and at the last word of memory. -/
def addiFirst : State := start 0x80000000#32 0x00500093#32 []
def addiLast : State := start 0x8000FFFC#32 0x00500093#32 []

/-- Hypotheses of StepRunsTheDecodedInstruction, at both ends of memory. -/
theorem test_witness_runs : ∀ s ∈ [addiFirst, addiLast], s.status = .running ∧ inBounds s.config s.pc 4 ∧
    decode s.config.exitCsr
      (s.byte (s.pc.toNat + 3) ++ s.byte (s.pc.toNat + 2) ++ s.byte (s.pc.toNat + 1) ++ s.byte s.pc.toNat) =
        .ok (.addi 1#5 0#5 5#12) := by decide

/-- Hypotheses of both clauses of FetchReadsTheWordAtThePc, where they meet. -/
theorem test_witness_fetch_in : inBounds referenceConfig 0x80000000#32 4 ∧ inBounds referenceConfig 0x8000FFFC#32 4 := by decide

theorem test_witness_fetch_out : State.reset.status = .running ∧ ¬ inBounds referenceConfig 0x7FFFFFFF#32 4 ∧
    ¬ inBounds referenceConfig 0x8000FFFD#32 4 ∧ ¬ inBounds referenceConfig 0xFFFFFFFF#32 4 := by decide

theorem test_witness_fetch_state : ∀ p : Word, (seedPc p State.reset).pc = p ∧ (seedPc p State.reset).config = referenceConfig ∧
    (seedPc p State.reset).status = .running := fun _ => ⟨rfl, rfl, rfl⟩

/-- Hypotheses of both clauses of UndecodableWordsEndFaulted. -/
theorem test_witness_undecodable :
    ((start 0x80000000#32 0x0000000B#32 []).status = .running ∧ fetch (start 0x80000000#32 0x0000000B#32 []) = some 0x0000000B#32 ∧
      decode State.reset.config.exitCsr 0x0000000B#32 = .error .unsupportedOpcode) ∧
    (start 0x80000000#32 0x022081B3#32 []).status = .running ∧ fetch (start 0x80000000#32 0x022081B3#32 []) = some 0x022081B3#32 ∧
      decode State.reset.config.exitCsr 0x022081B3#32 = .error .unsupportedFunct3 := by decide

/-- Hypotheses of the clauses of StepExistsExactlyWhileRunning. -/
theorem test_witness_statuses : State.reset.status = .running ∧ State.reset.halt.status = .halted ∧
    (fetchFault State.reset).status = .faulted { cause := .outOfBounds 0#32 .word, faultPc := 0#32, word := none } := by decide

/-- Hypotheses of ResetMeetsTheInvariant at both ends of `MEM_SIZE`. -/
theorem test_witness_memSize : Config.wf { memSize := 4, exitCsr := 0xC00#12 } ∧ Config.wf { memSize := 2 ^ 31, exitCsr := 0xC00#12 } := by
  decide

theorem inv_of_running (s : State) (hc : s.config.wf) (hm : s.mem.wf)
    (hb : ∀ c ∈ s.mem, memBase ≤ c.1 ∧ c.1 < memBase + s.config.memSize) (hr : s.status = .running) : s.Inv :=
  ⟨hc, hm, hb, fun r h => by rw [hr] at h; cases h⟩

/-- Hypotheses of StepKeepsTheInvariant, of StepWritesOneRegisterOrOneStore and of ParametersNeverChange. -/
theorem test_witness_invariant : addiFirst.Inv ∧ addiFirst.mem.wf ∧ step addiFirst = .next (after (step addiFirst)) :=
  ⟨inv_of_running _ (by decide) (by decide) (by decide) (by decide), by decide, rfl⟩

/-- The same at a step that stores to the last byte of memory. -/
theorem test_witness_store_step :
    (start 0x80000000#32 0x00508023#32 [(1#5, 0x8000FFFF#32), (5#5, 0xABCD#32)]).Inv ∧
    step (start 0x80000000#32 0x00508023#32 [(1#5, 0x8000FFFF#32), (5#5, 0xABCD#32)]) =
      .next (after (step (start 0x80000000#32 0x00508023#32 [(1#5, 0x8000FFFF#32), (5#5, 0xABCD#32)]))) :=
  ⟨inv_of_running _ (by decide) (by decide) (by decide) (by decide), rfl⟩

/-- Hypotheses of HostOperationsKeepTheInvariant and of ParametersNeverChange: a load of the last bytes, and a boot of the first. -/
theorem test_witness_host : State.reset.Inv ∧ State.reset.status = .running ∧
    (loadSegment 0x8000FFFE#32 [1#8, 2#8] State.reset).isOk = true ∧ (boot [(0x80000000#32, [1#8])] State.reset).isOk = true :=
  ⟨inv_of_running _ (by decide) (by decide) (by decide) (by decide), by decide, by decide, by decide⟩

/-- ECALL with x3 = 1, at the first word of memory. -/
def ecallPass : State := start 0x80000000#32 0x00000073#32 [(3#5, 1#32)]

/-- ECALL with the least failing x3. -/
def ecallFail : State := start 0x80000000#32 0x00000073#32 [(3#5, 2#32)]

/-- LB of the last byte of memory. -/
def lbLast : State := start 0x80000000#32 0x00008283#32 [(1#5, 0x8000FFFF#32)]

/-- Hypotheses of HaltingStepChangesOnlyTheStatus and of OnlyEcallAndTheSentinelHalt. -/
theorem test_witness_halting : step ecallPass = .next (after (step ecallPass)) ∧ (after (step ecallPass)).status = .halted :=
  ⟨rfl, by decide⟩

/-- Hypotheses of FaultingStepChangesOnlyTheStatus, OnlyEcallRaisesTestFailure and OutOfBoundsExactlyOutsideTheMemory. -/
theorem test_witness_faulting :
    (step ecallFail = .next (after (step ecallFail)) ∧ (after (step ecallFail)).status =
      .faulted { cause := .testFailure 2#32, faultPc := 0x80000000#32, word := some 0x00000073#32 }) ∧
    step lbLast = .next (after (step lbLast)) ∧ (after (step lbLast)).status =
      .faulted { cause := .outOfBounds 0x8000FFFF#32 .word, faultPc := 0x80000000#32, word := some 0x00008283#32 } :=
  ⟨⟨rfl, by decide⟩, rfl, by decide⟩

/-- addiFirst, with a byte listed below the buffer. -/
def addiBeside : State := { addiFirst with mem := (0x7FFFFFFF, 1#8) :: addiFirst.mem }

/-- Hypotheses of StepDependsOnlyOnTheArchitecturalState, of two states that are not the same. -/
theorem test_witness_same_machine : addiFirst.mem.wf ∧ addiBeside.mem.wf ∧ SameMachine addiFirst addiBeside ∧ addiFirst ≠ addiBeside :=
  ⟨by decide, by decide,
    ⟨fun _ => rfl, rfl, rfl, rfl, fun a ha _ => by
      rw [State.byte, State.byte, addiBeside]
      exact if_neg (Nat.ne_of_lt ha)⟩,
    by decide⟩

/-- Hypotheses of UnnamedRegistersDoNotMatter: another register, and the destination itself. -/
theorem test_witness_unnamed : ∀ r ∈ [4#5, 3#5, 0#5], r ∉ (Instr.add 3#5 1#5 2#5).sources ∧
    exec (.add 3#5 1#5 2#5) State.reset = .next (after (exec (.add 3#5 1#5 2#5) State.reset)) ∧
    exec (.add 3#5 1#5 2#5) (State.reset.setX r 7#32) = .next (after (exec (.add 3#5 1#5 2#5) (State.reset.setX r 7#32))) :=
  fun r hr => ⟨by revert hr; revert r; decide, rfl, rfl⟩

/-- Hypotheses of OtherInstructionsIgnoreMemory. -/
theorem test_witness_no_access : (Instr.ecall 0#5 0#5 0#12).checkedRange State.reset = none ∧
    exec (.ecall 0#5 0#5 0#12) State.reset = .next (after (exec (.ecall 0#5 0#5 0#12) State.reset)) := ⟨rfl, rfl⟩

/-- Hypotheses of CanonicalMemoryIsItsBytes: a byte written and cleared again. -/
theorem test_witness_canonical : Memory.wf [] ∧ (Memory.write (Memory.write [] 0x80000000 1#8) 0x80000000 0#8).wf ∧
    ∀ a, Memory.read [] a = (Memory.write (Memory.write [] 0x80000000 1#8) 0x80000000 0#8).read a :=
  ⟨by decide, by decide, fun _ => rfl⟩

/-- Hypotheses of RegisterFileContract: the first general register and the pc. -/
theorem test_witness_indices : (1 : Fin 33) ≠ 0 ∧ (32 : Fin 33) ≠ 0 := by decide

/-- x1 = 0x8000FFFC and x5 = 0xAABBCCDD: a store to the last four bytes. -/
def topStore : State := start 0x80000000#32 0x0050A023#32 [(1#5, 0x8000FFFC#32), (5#5, 0xAABBCCDD#32)]

/-- Hypotheses of the three clauses of LoadReturnsWhatWasStored, at the last address that has four bytes. -/
theorem test_witness_store_then_load : topStore.mem.wf ∧
    inBounds topStore.config (effectiveAddress (topStore.x 1#5) (immS 0#12)) 4 ∧
    ∀ i ∈ [Instr.sw 1#5 5#5 0#12, .sh 1#5 5#5 0#12, .sb 1#5 5#5 0#12],
      exec i topStore = .next (after (exec i topStore)) ∧
      effectiveAddress ((after (exec i topStore)).x 1#5) (immI 0#12) = effectiveAddress (topStore.x 1#5) (immS 0#12) := by
  refine ⟨by decide, by decide, fun i hi => ?_⟩
  simp only [List.mem_cons, List.not_mem_nil, or_false] at hi
  rcases hi with rfl | rfl | rfl <;> exact ⟨rfl, by decide⟩

/-- SW x5, 4(x1) at the last address with an instruction after it; x5 is ADDI x3, x0, 1. -/
def storeOverNext : State := start 0x8000FFF8#32 0x0050A223#32 [(1#5, 0x8000FFF8#32), (5#5, 0x00100193#32)]

/-- Hypotheses of StoredWordIsExecutedNext. -/
theorem test_witness_self_modifying : storeOverNext.mem.wf ∧ storeOverNext.status = .running ∧
    effectiveAddress (storeOverNext.x 1#5) (immS 4#12) = storeOverNext.pc + 4#32 ∧
    inBounds storeOverNext.config (storeOverNext.pc + 4#32) 4 ∧
    exec (.sw 1#5 5#5 4#12) storeOverNext = .next (after (exec (.sw 1#5 5#5 4#12) storeOverNext)) ∧
    decode storeOverNext.config.exitCsr (storeOverNext.x 5#5) = .ok (.addi 3#5 0#5 1#12) :=
  ⟨by decide, by decide, by decide, by decide, rfl, by decide⟩

/-- Hypothesis of the second clause of AluRoundTripAndSign. -/
theorem test_witness_sign_bit : (0x80000000#32).getLsbD 31 = true := by decide

/-- Hypotheses of OneAluServesOpAndImm, of BranchUnitEvaluatesFunct3, and of the word clauses of EcallInspectsTheStatusRegister and
ExitSentinelHalts. -/
theorem test_witness_opcodes :
    opcodeOf 0x402081B3#32 = 0x33#7 ∧ opcodeOf 0x4040D193#32 = 0x13#7 ∧ opcodeOf 0x0020F463#32 = 0x63#7 ∧ opcodeOf 0x0020A463#32 = 0x63#7 ∧
    (opcodeOf 0x10500073#32 = 0x73#7 ∧ funct3Of 0x10500073#32 = 0b000#3) ∧
    opcodeOf 0xC0001073#32 = 0x73#7 ∧ funct3Of 0xC0001073#32 = 0b001#3 := by decide

/-- Hypotheses of LoadResults and LoadsOutOfBoundsFault, where they meet: `a` is x1 + 0, and test_witness_fetch_in and
test_witness_fetch_out give the bounds. -/
theorem test_witness_load_addresses (a : Word) : a = effectiveAddress ((State.reset.setX 1#5 a).x 1#5) (immI 0#12) := by
  simp [State.x_setX, effectiveAddress, immI, sext32]

theorem test_witness_load_config : ∀ a : Word, (State.reset.setX 1#5 a).config = referenceConfig := fun _ => rfl

/-- The instructions that LoadsOutOfBoundsFault names. -/
theorem test_witness_load_instructions : Instr.lb 5#5 1#5 0#12 ∈
    [Instr.lb 5#5 1#5 0#12, .lh 5#5 1#5 0#12, .lw 5#5 1#5 0#12, .lbu 5#5 1#5 0#12, .lhu 5#5 1#5 0#12] := by decide

/-- Hypotheses of every clause of StoreResults and StoresOutOfBoundsFault, where they meet: `a` is x1 + 0. -/
theorem test_witness_store_addresses : State.reset.mem.wf ∧
    (∀ p ∈ [(0x8000FFFF#32, 1), (0x8000FFFE#32, 2), (0x8000FFFC#32, 4), (0x80000000#32, 4)],
      p.1 = effectiveAddress ((State.reset.setX 1#5 p.1).x 1#5) (immS 0#12) ∧ inBounds (State.reset.setX 1#5 p.1).config p.1 p.2) ∧
    ∀ p ∈ [(0x80010000#32, 1), (0x8000FFFF#32, 2), (0x8000FFFD#32, 4), (0x7FFFFFFF#32, 1)],
      p.1 = effectiveAddress ((State.reset.setX 1#5 p.1).x 1#5) (immS 0#12) ∧ ¬ inBounds (State.reset.setX 1#5 p.1).config p.1 p.2 := by
  decide

/-- Hypotheses of the three cases of EcallInspectsTheStatusRegister, where they meet. -/
theorem test_witness_ecall : 1 < (ecallFail.x 3#5).toNat ∧ ecallPass.x 3#5 = 1#32 ∧ State.reset.x 3#5 = 0#32 ∧
    0x10500073#32 ∈ [0x00000073#32, 0x00100073#32, 0x30200073#32, 0x10200073#32, 0x00200073#32, 0x10500073#32] := by decide

/-- Hypotheses of CsrInstructionsOnlyAdvanceThePc, on either side of `EXIT_CSR`, and of the last clause of ExitSentinelHalts. -/
theorem test_witness_csr : (∀ c ∈ [0xBFF#12, 0xC01#12], c ≠ State.reset.config.exitCsr) ∧
    Instr.csrrwi 0#5 0#5 State.reset.config.exitCsr ∈ [Instr.csrrs 0#5 0#5 State.reset.config.exitCsr,
      .csrrc 0#5 0#5 State.reset.config.exitCsr, .csrrwi 0#5 0#5 State.reset.config.exitCsr,
      .csrrsi 0#5 0#5 State.reset.config.exitCsr, .csrrci 0#5 0#5 State.reset.config.exitCsr] := by decide

/-- Hypotheses of ResetClearsEverything: reset of a core that has run. -/
theorem test_witness_reset : hostReset (after (step addiFirst)) = hostReset (after (step addiFirst)) ∨
    hostReset (after (step addiFirst)) = State.reset := .inl rfl

/-- Hypotheses of both clauses of LoadSegmentIsAllOrNothing, where they meet: no byte past the end, four to the end, one too many. -/
theorem test_witness_segments : State.reset.mem.wf ∧ inBounds State.reset.config 0x80010000#32 ([] : List Byte).length ∧
    inBounds State.reset.config 0x8000FFFC#32 [1#8, 2#8, 3#8, 4#8].length ∧
    ¬ inBounds State.reset.config 0x8000FFFD#32 [1#8, 2#8, 3#8, 4#8].length := by decide

/-- Hypothesis of BootLoadsTheImage. -/
theorem test_witness_boot : boot [(0x8000FFFC#32, [1#8, 2#8, 3#8, 4#8])] State.reset =
    .ok (seedPc entry { hostReset State.reset with mem := (Memory.writeBytes [] 0x8000FFFC [1#8, 2#8, 3#8, 4#8]) }) := rfl

/-- Hypotheses of RunsEndExactlyInHaltedOrFaulted. -/
theorem test_witness_runs_end : State.reset.status = .running ∧ Succeeded State.reset.halt ∧ Failed (fetchFault State.reset) ∧
    ¬ Succeeded (hostRun 0 State.reset) ∧ ¬ Failed (hostRun 0 State.reset) :=
  ⟨rfl, rfl, ⟨_, rfl⟩, (fun h => by cases h), fun h => by obtain ⟨_, h⟩ := h; cases h⟩

/-! ### The host's moves -/

/-- A session about to step: ADDI at the first word of memory, loaded and seeded. -/
def ready : Session := { core := addiFirst, phase := .seeded }

/-- A core that has just been reset, and one that has run to its end. -/
def fresh : Session := { core := State.reset, phase := .loading }
def ended : Session := { core := State.reset.halt, phase := .stepping }

/-- R225, R228, D24: not seeded twice, nothing loaded after the first step, no step before reset or in a terminal state. -/
theorem test_host_moves_refused :
    hostMove (.seed 0x80000000#32) ready = none ∧
    ((hostMove .step ready).bind fun p => hostMove (.load 0x80000000#32 [1#8]) p.1) = none ∧
    hostMove .step { core := addiFirst, phase := .unreset } = none ∧ hostMove .step ended = none := ⟨rfl, rfl, rfl, rfl⟩

/-- R224, R228, D25: a load that fails leaves the window open, and the host may go on to seed. -/
theorem test_host_goes_on_after_a_failed_load :
    (hostMoves [.load 0x8000FFFF#32 [1#8, 2#8], .seed 0x80000000#32] fresh).map (fun k => (k.core.pc, k.core.mem, k.phase)) =
      some (0x80000000#32, [], .seeded) := rfl

/-- R221, R228: reset in a terminal state opens a new run. -/
theorem test_host_resets_a_halted_core : hostMove .reset ended = some (fresh, .nothing) := rfl

/-- Hypotheses of the load and seed clauses of HostMovesAreAllowedAsTheTableSays and of HostMovesDoAsTheTableSays. -/
theorem test_witness_host_phases : fresh.phase = .loading ∧ (ready.phase = .loading ∨ ready.phase = .seeded) ∧
    (loadSegment 0x8000FFFE#32 [1#8, 2#8] fresh.core).isOk = true ∧
    loadSegment 0x8000FFFF#32 [1#8, 2#8] fresh.core = .error { addr := 0x8000FFFF#32, len := 2 } :=
  ⟨rfl, .inr rfl, by decide, by decide⟩

/-- Hypotheses of the step clause of HostMovesDoAsTheTableSays and of HostMovesKeepTheSessionInvariant. -/
theorem test_witness_host_step : ready.phase ≠ .unreset ∧ step ready.core = .next (after (step ready.core)) ∧ ready.Inv ∧
    hostMove .step ready = some ({ core := after (step addiFirst), phase := .stepping }, .newStatus .running) :=
  ⟨by decide, rfl, ⟨test_witness_invariant.1, fun _ => by decide⟩, rfl⟩

/-- Hypotheses of both clauses of HostWritesOnlyBeforeTheFirstStep: moves after the first step, and after a seed. -/
theorem test_witness_later_moves : HostMove.reset ∉ [HostMove.readStatus, .stop] ∧
    hostMoves [HostMove.readStatus, .stop] { core := after (step addiFirst), phase := .stepping } =
      some { core := after (step addiFirst), phase := .stepping } ∧
    hostMove .step ready = some ({ core := after (step addiFirst), phase := .stepping }, .newStatus .running) ∧
    hostMove (.seed 0x80000000#32) fresh = some ({ core := seedPc 0x80000000#32 State.reset, phase := .seeded }, .nothing) ∧
    hostMoves [HostMove.readStatus, .stop] { core := seedPc 0x80000000#32 State.reset, phase := .seeded } =
      some { core := seedPc 0x80000000#32 State.reset, phase := .seeded } :=
  ⟨by decide, rfl, rfl, rfl, rfl⟩

/-- Hypotheses of ProperImagesBootInAnyOrder, and of BootIsASequenceOfHostMoves: two segments that touch, up to the last byte of memory, in either
order. -/
theorem test_witness_image :
    ProperImage State.reset.config [(0x8000FFFC#32, [1#8, 2#8]), (0x8000FFFE#32, [3#8, 4#8])] ∧
    [(0x8000FFFC#32, [1#8, 2#8]), (0x8000FFFE#32, [3#8, 4#8])].Perm [(0x8000FFFE#32, [3#8, 4#8]), (0x8000FFFC#32, [1#8, 2#8])] ∧
    (boot [(0x8000FFFC#32, [1#8, 2#8]), (0x8000FFFE#32, [3#8, 4#8])] State.reset).isOk = true :=
  ⟨⟨by decide, by decide⟩, List.Perm.swap .., by decide⟩

/-- Hypotheses of the load segment, boot and host move clauses of ParametersNeverChange. -/
theorem test_witness_parameters :
    loadSegment 0x80010000#32 [] State.reset = .ok State.reset ∧ boot [] State.reset = .ok (seedPc entry State.reset) ∧
    hostMove .reset ended = some (fresh, .nothing) := ⟨rfl, rfl, rfl⟩

end Sys2Proof.Tests
end

section
/-! PROOFS. The encoder undoes the decoder on every word that decodes (30_encoding.md R73 to R83). -/

namespace Sys2Proof

/-- The opcode that selects a class (30_encoding.md R74). -/
def OpClass.opcode : OpClass → BitVec 7
  | .lui => 0b0110111#7
  | .auipc => 0b0010111#7
  | .jal => 0b1101111#7
  | .jalr => 0b1100111#7
  | .branch => 0b1100011#7
  | .load => 0b0000011#7
  | .store => 0b0100011#7
  | .imm => 0b0010011#7
  | .op => 0b0110011#7
  | .miscFence => 0b0001111#7
  | .system => 0b1110011#7

theorem opcode_of_opcodeClass {op : BitVec 7} {c : OpClass} (h : opcodeClass op = some c) : op = c.opcode := by
  unfold opcodeClass at h
  split at h <;> cases h <;> rfl

/-! ### A format with the selectors of a word in place is that word -/

theorem encodeR_of_selectors {w : Word} {f7 : BitVec 7} {f3 : BitVec 3} {op : BitVec 7} (h7 : funct7Of w = f7)
    (h3 : funct3Of w = f3) (hop : opcodeOf w = op) : encodeR f7 (rs2Of w) (rs1Of w) f3 (rdOf w) op = w := by
  subst h7 h3 hop
  exact encodeR_fields w

theorem encodeI_of_selectors {w : Word} {f3 : BitVec 3} {op : BitVec 7} (h3 : funct3Of w = f3) (hop : opcodeOf w = op) :
    encodeI (immIOf w) (rs1Of w) f3 (rdOf w) op = w := by
  subst h3 hop
  exact encodeI_fields w

theorem encodeS_of_selectors {w : Word} {f3 : BitVec 3} {op : BitVec 7} (h3 : funct3Of w = f3) (hop : opcodeOf w = op) :
    encodeS (immSOf w) (rs2Of w) (rs1Of w) f3 op = w := by
  subst h3 hop
  exact encodeS_fields w

theorem encodeB_of_selectors {w : Word} {f3 : BitVec 3} {op : BitVec 7} (h3 : funct3Of w = f3) (hop : opcodeOf w = op) :
    encodeB (immBOf w) (rs2Of w) (rs1Of w) f3 op = w := by
  subst h3 hop
  exact encodeB_fields w

theorem encodeU_of_opcode {w : Word} {op : BitVec 7} (hop : opcodeOf w = op) : encodeU (immUOf w) (rdOf w) op = w := by
  subst hop
  exact encodeU_fields w

theorem encodeJ_of_opcode {w : Word} {op : BitVec 7} (hop : opcodeOf w = op) : encodeJ (immJOf w) (rdOf w) op = w := by
  subst hop
  exact encodeJ_fields w

/-! ### Class by class: each row the class decoder answers was chosen by the selectors the encoder writes -/

theorem encode_of_decodeOp {x : BitVec 12} {w : Word} {i : Instr} (hop : opcodeOf w = OpClass.op.opcode)
    (h : decodeOp w = .ok i) : encode x i = w := by
  unfold decodeOp at h
  split at h <;> cases h
  all_goals exact encodeR_of_selectors ‹_› ‹_› hop

theorem encode_of_decodeShiftImm {x : BitVec 12} {w : Word} {i : Instr} (hop : opcodeOf w = OpClass.imm.opcode)
    (h : decodeShiftImm w = .ok i) : encode x i = w := by
  unfold decodeShiftImm at h
  split at h <;> cases h
  all_goals exact encodeR_of_selectors ‹_› ‹_› hop

theorem encode_of_decodeImm {x : BitVec 12} {w : Word} {i : Instr} (hop : opcodeOf w = OpClass.imm.opcode)
    (h : decodeImm w = .ok i) : encode x i = w := by
  unfold decodeImm at h
  split at h
  case h_7 => exact encode_of_decodeShiftImm hop h
  all_goals
    cases h
    exact encodeI_of_selectors ‹_› hop

theorem encode_of_decodeBranch {x : BitVec 12} {w : Word} {i : Instr} (hop : opcodeOf w = OpClass.branch.opcode)
    (h : decodeBranch w = .ok i) : encode x i = w := by
  unfold decodeBranch at h
  split at h <;> cases h
  all_goals exact encodeB_of_selectors ‹_› hop

theorem encode_of_decodeLoad {x : BitVec 12} {w : Word} {i : Instr} (hop : opcodeOf w = OpClass.load.opcode)
    (h : decodeLoad w = .ok i) : encode x i = w := by
  unfold decodeLoad at h
  split at h <;> cases h
  all_goals exact encodeI_of_selectors ‹_› hop

theorem encode_of_decodeStore {x : BitVec 12} {w : Word} {i : Instr} (hop : opcodeOf w = OpClass.store.opcode)
    (h : decodeStore w = .ok i) : encode x i = w := by
  unfold decodeStore at h
  split at h <;> cases h
  all_goals exact encodeS_of_selectors ‹_› hop

theorem encode_of_decodeJalr {x : BitVec 12} {w : Word} {i : Instr} (hop : opcodeOf w = OpClass.jalr.opcode)
    (h : decodeJalr w = .ok i) : encode x i = w := by
  unfold decodeJalr at h
  split at h <;> cases h
  exact encodeI_of_selectors ‹_› hop

theorem encode_of_decodeMiscFence {x : BitVec 12} {w : Word} {i : Instr} (hop : opcodeOf w = OpClass.miscFence.opcode)
    (h : decodeMiscFence w = .ok i) : encode x i = w := by
  unfold decodeMiscFence at h
  split at h <;> cases h
  all_goals exact encodeI_of_selectors ‹_› hop

/-- The exit sentinel has no selector operand: the encoder puts `EXIT_CSR` back (44_system.md R187). -/
theorem encode_of_decodeSystem {x : BitVec 12} {w : Word} {i : Instr} (hop : opcodeOf w = OpClass.system.opcode)
    (h : decodeSystem x w = .ok i) : encode x i = w := by
  unfold decodeSystem at h
  split at h
  case h_2 h3 =>
    split at h <;> cases h
    · next hx =>
      subst hx
      exact encodeI_of_selectors h3 hop
    · exact encodeI_of_selectors h3 hop
  case h_8 => cases h
  all_goals
    cases h
    exact encodeI_of_selectors ‹_› hop

/-- Encoding what a word decodes to gives the word back (30_encoding.md R73). -/
theorem encode_of_decode {x : BitVec 12} {w : Word} {i : Instr} (h : decode x w = .ok i) : encode x i = w := by
  unfold decode at h
  split at h
  case h_1 => cases h
  all_goals have hop := opcode_of_opcodeClass ‹opcodeClass (opcodeOf w) = some _›
  case h_2 | h_3 =>
    cases h
    exact encodeU_of_opcode hop
  case h_4 =>
    cases h
    exact encodeJ_of_opcode hop
  case h_5 => exact encode_of_decodeJalr hop h
  case h_6 => exact encode_of_decodeBranch hop h
  case h_7 => exact encode_of_decodeLoad hop h
  case h_8 => exact encode_of_decodeStore hop h
  case h_9 => exact encode_of_decodeImm hop h
  case h_10 => exact encode_of_decodeOp hop h
  case h_11 => exact encode_of_decodeMiscFence hop h
  case h_12 => exact encode_of_decodeSystem hop h

end Sys2Proof
end

section
/-! PROOFS. Every step keeps the invariant of the machine (00_scope.md R6, 20_memory.md R40 to R42, 10_state.md R32). -/

namespace Sys2Proof.Machine

/-! ### Which updates of a state keep the invariant -/

/-- A state that holds no fault record needs only the clauses on parameters and memory. -/
theorem State.Inv.of_same_memory {s t : State} (hs : s.Inv) (hc : t.config = s.config) (hm : t.mem = s.mem)
    (hst : ∀ r, t.status ≠ .faulted r) : t.Inv := by
  obtain ⟨hcfg, hwf, hbuf, -⟩ := hs
  refine ⟨hc ▸ hcfg, hm ▸ hwf, ?_, fun r hr => absurd hr (hst r)⟩
  rw [hc, hm]
  exact hbuf

theorem State.not_faulted_of_running {s : State} (hrun : s.status = .running) (r : FaultRecord) : s.status ≠ .faulted r := by
  simp [hrun]

theorem State.Inv.setX {s : State} (hs : s.Inv) (hrun : s.status = .running) (r : Reg) (v : Word) : (s.setX r v).Inv :=
  hs.of_same_memory (s.setX_config r v) (s.setX_mem r v)
    (State.not_faulted_of_running ((s.setX_status r v).trans hrun))

theorem State.Inv.setPc {s : State} (hs : s.Inv) (hrun : s.status = .running) (t : Word) : (s.setPc t).Inv :=
  hs.of_same_memory rfl rfl (State.not_faulted_of_running hrun)

theorem State.Inv.advance {s : State} (hs : s.Inv) (hrun : s.status = .running) : s.advance.Inv :=
  hs.setPc hrun s.nextPc

theorem State.Inv.halt {s : State} (hs : s.Inv) : s.halt.Inv :=
  hs.of_same_memory rfl rfl (by simp)

/-- Raising a fault keeps the invariant exactly where its record is coherent. Coherence does not look at the status, so it may be asked of
the state before (40_cycle.md R95). -/
theorem State.Inv.raise {s : State} (hs : s.Inv) {w : Option Word} {c : FaultCause}
    (hr : FaultRecord.coherent s { cause := c, faultPc := s.pc, word := w }) : (s.raise w c).Inv := by
  obtain ⟨hcfg, hwf, hbuf, -⟩ := hs
  refine ⟨hcfg, hwf, hbuf, fun r h => ?_⟩
  cases h
  exact hr

/-- Bytes written in bounds stay in the buffer, in the canonical form (20_memory.md R41, R42). -/
theorem State.Inv.writeBytes {s : State} (hs : s.Inv) (hrun : s.status = .running) {a : Word} {bs : List Byte}
    (hb : inBounds s.config a bs.length) : State.Inv { s with mem := s.mem.writeBytes a.toNat bs } := by
  obtain ⟨hcfg, hwf, hbuf, -⟩ := hs
  obtain ⟨hlo, hhi⟩ := hb
  refine ⟨hcfg, Memory.writeBytes_wf bs s.mem a.toNat hwf, fun d hd => ?_, fun r h => ?_⟩
  · rcases Memory.mem_writeBytes bs s.mem a.toNat d hd with hold | ⟨hge, hlt⟩
    · exact hbuf d hold
    · exact ⟨hlo.trans hge, hlt.trans_le hhi⟩
  · exact absurd h (State.not_faulted_of_running hrun r)

/-! ### Each end of a step -/

theorem not_inBounds_of_fetch_none {s : State} (h : fetch s = none) : ¬ inBounds s.config s.pc 4 := fun hb => by
  cases h.symm.trans (State.read32_in s s.pc hb)

theorem fetchFault_inv {s : State} (hs : s.Inv) (hf : fetch s = none) : (fetchFault s).Inv :=
  hs.raise ⟨rfl, hf.symm, not_inBounds_of_fetch_none hf⟩

theorem decodeFault_inv {s : State} {w : Word} {e : DecodeError} (hs : s.Inv) (hf : fetch s = some w)
    (hd : decode s.config.exitCsr w = .error e) : (decodeFault s w e).Inv := by
  cases e with
  | unsupportedOpcode => exact hs.raise ⟨rfl, hf.symm, w, hf, hd⟩
  | unsupportedFunct3 => exact hs.raise ⟨rfl, hf.symm, w, hf, hd⟩

/-- The effect is no fault, or the fault of ECALL: a failed test, with the value of the status register
(44_system.md R184, 60_exceptions.md R204). An out-of-bounds access is found later, at write-back. -/
def Effect.FaultsOnlyOnStatus (s : State) (e : Effect) : Prop :=
  ∀ c, e = .fault c → c = .testFailure (s.x statusReg) ∧ 1 < (s.x statusReg).toNat

theorem ecallEffect_faultsOnlyOnStatus (s : State) : (ecallEffect (s.x statusReg)).FaultsOnlyOnStatus s := by
  intro c hc
  unfold ecallEffect at hc
  split_ifs at hc with hv
  cases hc
  exact ⟨rfl, hv⟩

/-- Every meaning is one effect of its own instruction, and that faults as ECALL does or not at all. -/
theorem exec_is_retire_faultsOnlyOnStatus (i : Instr) (s : State) :
    ∃ e, exec i s = .next (retire (encode s.config.exitCsr i) e s) ∧ e.FaultsOnlyOnStatus s := by
  cases i with
  | ecall => exact ⟨_, rfl, ecallEffect_faultsOnlyOnStatus s⟩
  | csrrw rd rs1 csr =>
    refine ⟨_, rfl, fun c hc => ?_⟩
    split_ifs at hc
  | _ => exact ⟨_, rfl, nofun⟩

/-- Write-back of an effect keeps the invariant, where the word its fault record would keep is the fetched one. -/
theorem retire_inv {s : State} {w : Word} {e : Effect} (hs : s.Inv) (hrun : s.status = .running) (hf : fetch s = some w)
    (he : e.FaultsOnlyOnStatus s) : (retire w e s).Inv := by
  have hrunX : ∀ rd v, (s.setX rd v).status = .running := fun rd v => (s.setX_status rd v).trans hrun
  rcases retire_cases w e s with ⟨rd, v, -, h⟩ | ⟨rd, t, -, h⟩ | ⟨taken, t, -, h⟩ | ⟨rd, a, n, sg, raw, -, -, h⟩ |
    ⟨rd, a, n, sg, -, hout, h⟩ | ⟨a, n, v, -, hin, h⟩ | ⟨a, n, v, -, hout, h⟩ | ⟨-, h⟩ | ⟨-, h⟩ | ⟨c, hfault, h⟩ <;> rw [h]
  · exact (hs.setX hrun rd v).advance (hrunX rd v)
  · exact (hs.setX hrun rd s.nextPc).setPc (hrunX rd s.nextPc) t
  · exact hs.setPc hrun _
  · exact (hs.setX hrun rd _).advance (hrunX rd _)
  · exact hs.raise ⟨rfl, hf.symm, hout⟩
  · exact (hs.writeBytes hrun ((length_storeBytes n v).symm ▸ hin)).advance hrun
  · exact hs.raise ⟨rfl, hf.symm, hout⟩
  · exact hs.advance hrun
  · exact hs.halt
  · obtain ⟨rfl, hv⟩ := he c hfault
    exact hs.raise ⟨rfl, hf.symm, by simp [hf], rfl, hv⟩

/-- Settles O12: the two faults before the execute stage record what they found, and the meaning of an instruction is one effect written
back, whose record keeps the encoding of the instruction, which is the fetched word. -/
theorem stepKeepsTheInvariant : Obligations.StepKeepsTheInvariant := by
  intro s t hs hstep
  obtain ⟨hrun, ⟨hf, rfl⟩ | ⟨w, e, hf, hd, rfl⟩ | ⟨w, i, hf, hd, hexec⟩⟩ := step_cases s t hstep
  · exact fetchFault_inv hs hf
  · exact decodeFault_inv hs hf hd
  · obtain ⟨e, he, hfault⟩ := exec_is_retire_faultsOnlyOnStatus i s
    rw [he, encode_of_decode hd] at hexec
    cases hexec
    exact retire_inv hs hrun hf hfault

end Sys2Proof.Machine
end

section
/-! PROOFS. Sign and zero extension (00_scope.md R8). -/

namespace Sys2Proof.Machine

theorem getLsbD_sext32 {n : Nat} (v : BitVec n) {k : Nat} (hk : k < 32) :
    (sext32 v).getLsbD k = if k < n then v.getLsbD k else v.getLsbD (n - 1) := by
  rw [sext32, BitVec.getLsbD_signExtend, BitVec.msb_eq_getLsbD_last]
  simp [hk]

theorem getLsbD_zext32 {n : Nat} (v : BitVec n) {k : Nat} (hk : k < 32) :
    (zext32 v).getLsbD k = if k < n then v.getLsbD k else false := by
  rw [zext32, BitVec.getLsbD_setWidth]
  split <;> simp_all

/-- The formula of R8: sign extension is the signed value modulo 2^32. -/
theorem sext32_eq_ofInt {n : Nat} (v : BitVec n) :
    sext32 v = BitVec.ofInt 32 (if v.getLsbD (n - 1) then (v.toNat : Int) - 2 ^ n else v.toNat) := by
  rw [← BitVec.msb_eq_getLsbD_last]
  change BitVec.ofInt 32 v.toInt = _
  rw [BitVec.toInt_eq_msb_cond]
  push_cast
  rfl

theorem sext32_full_width (x : Word) : sext32 x = x := BitVec.signExtend_eq x

/-- Settles O6: the bits and the formula are facts of `sext32` and `zext32` at every width; the immediates are `sext32` by definition. -/
theorem signAndZeroExtension : Obligations.SignAndZeroExtension := by
  exact ⟨fun n v _ _ => ⟨fun k hk => getLsbD_sext32 v hk, fun k hk => getLsbD_zext32 v hk, sext32_eq_ofInt v⟩,
    sext32_full_width, fun imm => ⟨rfl, rfl⟩, fun imm => rfl, fun imm => rfl⟩

end Sys2Proof.Machine
end

section
/-! PROOFS. Nothing writes the parameters (00_scope.md R6, 10_state.md R33). -/

namespace Sys2Proof.Machine

@[simp] theorem decodeFault_config (s : State) (w : Word) (e : DecodeError) : (decodeFault s w e).config = s.config := by
  cases e <;> rfl

@[simp] theorem hostReset_config (s : State) : (hostReset s).config = s.config := rfl

theorem step_config {s t : State} (h : step s = .next t) : t.config = s.config := by
  obtain ⟨-, ⟨-, rfl⟩ | ⟨w, e, -, -, rfl⟩ | ⟨w, i, -, -, hexec⟩⟩ := step_cases s t h
  · rfl
  · exact decodeFault_config s w e
  · exact exec_config i s t hexec

theorem loadSegment_config {a : Word} {bs : List Byte} {s t : State} (h : loadSegment a bs s = .ok t) : t.config = s.config := by
  obtain ⟨-, rfl⟩ := loadSegment_eq_ok a bs s t h
  rfl

theorem loadSegments_config {segs : List (Word × List Byte)} {s t : State} (h : loadSegments segs s = .ok t) :
    t.config = s.config := by
  induction segs generalizing s with
  | nil =>
    cases h
    rfl
  | cons seg segs ih =>
    rw [loadSegments] at h
    split at h
    · exact (ih h).trans (loadSegment_config ‹_›)
    · cases h

theorem boot_config {segs : List (Word × List Byte)} {s t : State} (h : boot segs s = .ok t) : t.config = s.config := by
  unfold boot at h
  split at h
  next u hload =>
    cases h
    rw [seedPc_config, loadSegments_config hload, hostReset_config]
  next => cases h

theorem hostMove_config {m : HostMove} {h k : Session} {r : HostReply} (hm : hostMove m h = some (k, r)) :
    k.core.config = h.core.config := by
  obtain ⟨rfl, -⟩ | ⟨-, rfl⟩ | ⟨a, bs, t, -, -, hload, rfl⟩ | ⟨p, -, -, rfl⟩ | ⟨t, -, -, -, hstep, rfl⟩ :=
    hostMove_cases m h k r hm
  · rfl
  · rfl
  · exact loadSegment_config hload
  · rfl
  · exact step_config hstep

/-- Settles O21: one lemma per operation; a host move is one of those operations or changes nothing. -/
theorem parametersNeverChange : Obligations.ParametersNeverChange := by
  intro s
  exact ⟨fun _ => step_config, hostReset_config s, fun _ _ _ => loadSegment_config, fun p => seedPc_config p s, fun _ _ => boot_config,
    fun _ _ _ _ => hostMove_config⟩

end Sys2Proof.Machine
end

section
/-! PROOFS. The execute stage as a function: the effect each instruction hands to write-back (40_cycle.md R93), tied to `exec` by
`exec_eq_retire`, and what that effect is computed from: the source registers, the pc and `EXIT_CSR` (10_state.md R23). -/

namespace Sys2Proof

open Machine

/-- What the execute stage of an instruction yields (40_cycle.md R93). -/
def Instr.effect (s : State) : Instr → Effect
  | .add rd rs1 rs2 => .writeRd rd (aluApply .addSub (s.x rs1) (s.x rs2) false)
  | .sub rd rs1 rs2 => .writeRd rd (aluApply .addSub (s.x rs1) (s.x rs2) true)
  | .sll rd rs1 rs2 => .writeRd rd (aluApply .sll (s.x rs1) (s.x rs2) false)
  | .slt rd rs1 rs2 => .writeRd rd (aluApply .slt (s.x rs1) (s.x rs2) false)
  | .sltu rd rs1 rs2 => .writeRd rd (aluApply .sltu (s.x rs1) (s.x rs2) false)
  | .xor rd rs1 rs2 => .writeRd rd (aluApply .xor (s.x rs1) (s.x rs2) false)
  | .srl rd rs1 rs2 => .writeRd rd (aluApply .srlSra (s.x rs1) (s.x rs2) false)
  | .sra rd rs1 rs2 => .writeRd rd (aluApply .srlSra (s.x rs1) (s.x rs2) true)
  | .or rd rs1 rs2 => .writeRd rd (aluApply .or (s.x rs1) (s.x rs2) false)
  | .and rd rs1 rs2 => .writeRd rd (aluApply .and (s.x rs1) (s.x rs2) false)
  | .addi rd rs1 imm => .writeRd rd (aluApply .addSub (s.x rs1) (immI imm) false)
  | .slti rd rs1 imm => .writeRd rd (aluApply .slt (s.x rs1) (immI imm) false)
  | .sltiu rd rs1 imm => .writeRd rd (aluApply .sltu (s.x rs1) (immI imm) false)
  | .xori rd rs1 imm => .writeRd rd (aluApply .xor (s.x rs1) (immI imm) false)
  | .ori rd rs1 imm => .writeRd rd (aluApply .or (s.x rs1) (immI imm) false)
  | .andi rd rs1 imm => .writeRd rd (aluApply .and (s.x rs1) (immI imm) false)
  | .slli rd rs1 shamt => .writeRd rd (aluApply .sll (s.x rs1) (immShift 0b0000000#7 shamt) false)
  | .srli rd rs1 shamt => .writeRd rd (aluApply .srlSra (s.x rs1) (immShift 0b0000000#7 shamt) false)
  | .srai rd rs1 shamt => .writeRd rd (aluApply .srlSra (s.x rs1) (immShift 0b0100000#7 shamt) true)
  | .lui rd imm => .writeRd rd (immU imm)
  | .auipc rd imm => .writeRd rd (s.pc + immU imm)
  | .jal rd imm => .jump rd (s.pc + immJ imm)
  | .jalr rd rs1 imm => .jump rd (s.x rs1 + immI imm)
  | .beq rs1 rs2 imm => .branch (evaluate .eq (s.x rs1) (s.x rs2)) (s.pc + immB imm)
  | .bne rs1 rs2 imm => .branch (evaluate .ne (s.x rs1) (s.x rs2)) (s.pc + immB imm)
  | .blt rs1 rs2 imm => .branch (evaluate .lt (s.x rs1) (s.x rs2)) (s.pc + immB imm)
  | .bge rs1 rs2 imm => .branch (evaluate .ge (s.x rs1) (s.x rs2)) (s.pc + immB imm)
  | .bltu rs1 rs2 imm => .branch (evaluate .ltu (s.x rs1) (s.x rs2)) (s.pc + immB imm)
  | .bgeu rs1 rs2 imm => .branch (evaluate .geu (s.x rs1) (s.x rs2)) (s.pc + immB imm)
  | .lb rd rs1 imm => .load rd (effectiveAddress (s.x rs1) (immI imm)) .byte true
  | .lh rd rs1 imm => .load rd (effectiveAddress (s.x rs1) (immI imm)) .half true
  | .lw rd rs1 imm => .load rd (effectiveAddress (s.x rs1) (immI imm)) .word true
  | .lbu rd rs1 imm => .load rd (effectiveAddress (s.x rs1) (immI imm)) .byte false
  | .lhu rd rs1 imm => .load rd (effectiveAddress (s.x rs1) (immI imm)) .half false
  | .sb rs1 rs2 imm => .store (effectiveAddress (s.x rs1) (immS imm)) .byte (s.x rs2)
  | .sh rs1 rs2 imm => .store (effectiveAddress (s.x rs1) (immS imm)) .half (s.x rs2)
  | .sw rs1 rs2 imm => .store (effectiveAddress (s.x rs1) (immS imm)) .word (s.x rs2)
  | .ecall .. => ecallEffect (s.x statusReg)
  | .csrrwExit .. => .halt
  | .csrrw _ _ csr => if csr = s.config.exitCsr then .halt else .next
  | .fence .. | .fenceI .. | .csrrs .. | .csrrc .. | .csrrwi .. | .csrrsi .. | .csrrci .. => .next

/-- Every meaning is the effect of its instruction, written back. -/
theorem exec_eq_retire (i : Instr) (s : State) : exec i s = .next (retire (encode s.config.exitCsr i) (i.effect s) s) := by
  cases i <;> rfl

/-- The effect is computed from the source registers, the pc and `EXIT_CSR` (10_state.md R23). -/
theorem Instr.effect_congr (i : Instr) {s t : State} (hx : ∀ r ∈ i.sources, t.x r = s.x r) (hpc : t.pc = s.pc)
    (hc : t.config.exitCsr = s.config.exitCsr) : i.effect t = i.effect s := by
  cases i <;> simp_all [Instr.effect, Instr.sources]

end Sys2Proof
end

section
/-! PROOFS. Noninterference: two states that agree on some registers, and whose memories are in a relation that every buffer read and every
write respects, still agree after a write-back (10_state.md R23, R33, R35). -/

namespace Sys2Proof.Machine

/-! ### The relation of two memories -/

/-- Memories in the relation read the same inside the buffer, and a byte written to both leaves them in it. -/
structure RespectsAccesses (c : Config) (M : Memory → Memory → Prop) : Prop where
  read : ∀ {m n : Memory} {a : Nat}, M m n → memBase ≤ a → a < memBase + c.memSize → n.read a = m.read a
  write : ∀ {m n : Memory} (a : Nat) (b : Byte), M m n → M (m.write a b) (n.write a b)

theorem RespectsAccesses.writeBytes {c : Config} {M : Memory → Memory → Prop} (hM : RespectsAccesses c M) (bs : List Byte)
    {m n : Memory} (a : Nat) (h : M m n) : M (m.writeBytes a bs) (n.writeBytes a bs) := by
  induction bs generalizing m n a with
  | nil => exact h
  | cons b bs ih => exact ih (a + 1) (hM.write a b h)

theorem respectsAccesses_eq (c : Config) : RespectsAccesses c Eq where
  read h _ _ := by rw [h]
  write a b h := by rw [h]

/-- Canonical memories that hold the same bytes in the buffer (20_memory.md R40; log entry 10). -/
structure SameBuffer (c : Config) (m n : Memory) : Prop where
  wf_left : m.wf
  wf_right : n.wf
  read : ∀ a, memBase ≤ a → a < memBase + c.memSize → n.read a = m.read a

theorem respectsAccesses_sameBuffer (c : Config) : RespectsAccesses c (SameBuffer c) where
  read h hlo hhi := h.read _ hlo hhi
  write {m n} a b h := by
    obtain ⟨hm, hn, hread⟩ := h
    refine ⟨Memory.write_wf m a b hm, Memory.write_wf n a b hn, fun q hlo hhi => ?_⟩
    rw [Memory.read_write m a b hm, Memory.read_write n a b hn, hread q hlo hhi]

/-! ### The relation of two states -/

/-- The states agree on the registers in `R`, the pc, the status and the parameters, and their memories are related by `M`. -/
structure Agree (R : Reg → Prop) (M : Memory → Memory → Prop) (s t : State) : Prop where
  x : ∀ q, R q → t.x q = s.x q
  pc : t.pc = s.pc
  status : t.status = s.status
  config : t.config = s.config
  mem : M s.mem t.mem

section Agreement

variable {R : Reg → Prop} {M : Memory → Memory → Prop} {s t : State}

theorem Agree.setX (h : Agree R M s t) (r : Reg) (v : Word) : Agree R M (s.setX r v) (t.setX r v) where
  x q hq := by rw [State.x_setX, State.x_setX, h.x q hq]
  pc := by simpa using h.pc
  status := by simpa using h.status
  config := by simpa using h.config
  mem := by simpa using h.mem

theorem Agree.setPc (h : Agree R M s t) (p : Word) : Agree R M (s.setPc p) (t.setPc p) :=
  ⟨h.x, rfl, h.status, h.config, h.mem⟩

theorem Agree.nextPc_eq (h : Agree R M s t) : t.nextPc = s.nextPc := by
  rw [State.nextPc, State.nextPc, h.pc]

theorem Agree.advance (h : Agree R M s t) : Agree R M s.advance t.advance := by
  rw [State.advance, State.advance, h.nextPc_eq]
  exact h.setPc _

theorem Agree.raise (h : Agree R M s t) (w : Option Word) (c : FaultCause) : Agree R M (s.raise w c) (t.raise w c) :=
  ⟨h.x, h.pc, by rw [State.raise_status, State.raise_status, h.pc], h.config, h.mem⟩

theorem Agree.halt (h : Agree R M s t) : Agree R M s.halt t.halt :=
  ⟨h.x, h.pc, rfl, h.config, h.mem⟩

theorem Agree.after_fetchFault (h : Agree R M s t) : Agree R M (fetchFault s) (fetchFault t) := by
  rw [fetchFault, fetchFault, h.pc]
  exact h.raise _ _

theorem Agree.after_decodeFault (h : Agree R M s t) (w : Word) (e : DecodeError) :
    Agree R M (decodeFault s w e) (decodeFault t w e) := by
  cases e <;> exact h.raise _ _

theorem Agree.read32_eq (h : Agree R M s t) (hM : RespectsAccesses s.config M) (a : Word) : t.read32 a = s.read32 a := by
  by_cases hb : inBounds s.config a 4
  · have hbyte : ∀ k < 4, t.byte (a.toNat + k) = s.byte (a.toNat + k) := fun k hk =>
      hM.read h.mem (hb.1.trans (Nat.le_add_right _ k)) ((Nat.add_lt_add_left hk _).trans_le hb.2)
    rw [State.read32_in s a hb, State.read32_in t a (h.config ▸ hb), hbyte 1 (by decide), hbyte 2 (by decide), hbyte 3 (by decide),
      show t.byte a.toNat = s.byte a.toNat from hbyte 0 (by decide)]
  · rw [State.read32_out s a hb, State.read32_out t a (h.config ▸ hb)]

theorem Agree.fetch_eq (h : Agree R M s t) (hM : RespectsAccesses s.config M) : fetch t = fetch s := by
  rw [fetch, fetch, h.pc]
  exact h.read32_eq hM s.pc

/-- The same effect, written back into both states, leaves them agreeing: an access finds the same bounds and the same bytes. -/
theorem Agree.after_retire (h : Agree R M s t) (hM : RespectsAccesses s.config M) (w : Word) (e : Effect) :
    Agree R M (retire w e s) (retire w e t) := by
  cases e with
  | writeRd rd v => exact (h.setX rd v).advance
  | jump rd p =>
    rw [retire_jump, retire_jump, h.nextPc_eq]
    exact (h.setX rd _).setPc p
  | branch taken p =>
    rw [retire_branch, retire_branch, h.nextPc_eq]
    exact h.setPc _
  | load rd a n sg =>
    simp only [retire, h.read32_eq hM a]
    cases s.read32 a with
    | some raw => exact (h.setX rd _).advance
    | none => exact h.raise _ _
  | store a n v =>
    by_cases hb : inBounds s.config a n.bytes
    · rw [retire_store_in w a n v s hb, retire_store_in w a n v t (h.config ▸ hb)]
      exact Agree.advance ⟨h.x, h.pc, h.status, h.config, hM.writeBytes _ _ h.mem⟩
    · rw [retire_store_out w a n v s hb, retire_store_out w a n v t (h.config ▸ hb)]
      exact h.raise _ _
  | next => exact h.advance
  | halt => exact h.halt
  | fault c => exact h.raise _ _

/-- An instruction whose source registers are among those the states agree on does the same to both. -/
theorem Agree.after_exec (h : Agree R M s t) (hM : RespectsAccesses s.config M) {i : Instr} (hR : ∀ r ∈ i.sources, R r) :
    ∃ s' t', exec i s = .next s' ∧ exec i t = .next t' ∧ Agree R M s' t' := by
  refine ⟨_, _, exec_eq_retire i s, exec_eq_retire i t, ?_⟩
  rw [h.config, i.effect_congr (fun r hr => h.x r (hR r hr)) h.pc (by rw [h.config])]
  exact h.after_retire hM _ _

end Agreement

/-! ### Two steps -/

theorem step_halted {s : State} (hs : s.status = .halted) : step s = .fault .noStepWhenHalted := by
  simp only [step, hs]

theorem step_faulted {s : State} {r : FaultRecord} (hs : s.status = .faulted r) : step s = .fault .noStepWhenFaulted := by
  simp only [step, hs]

theorem step_exec {s : State} {w : Word} {i : Instr} (hr : s.status = .running) (hf : fetch s = some w)
    (hd : decode s.config.exitCsr w = .ok i) : step s = exec i s := by
  simp only [step, hr, hf, hd]

/-- States that agree on every register both step, to states that agree again, or neither does, for the same reason. -/
theorem Agree.after_step {M : Memory → Memory → Prop} {s t : State} (h : Agree (fun _ => True) M s t)
    (hM : RespectsAccesses s.config M) :
    (∃ s' t', step s = .next s' ∧ step t = .next t' ∧ Agree (fun _ => True) M s' t') ∨
      ∃ f, step s = .fault f ∧ step t = .fault f := by
  have hst := h.status
  cases hs : s.status with
  | halted => exact .inr ⟨_, step_halted hs, step_halted (hst.trans hs)⟩
  | faulted r => exact .inr ⟨_, step_faulted hs, step_faulted (hst.trans hs)⟩
  | running =>
    have hrun := hst.trans hs
    have hfetch := h.fetch_eq hM
    left
    cases hf : fetch s with
    | none => exact ⟨_, _, step_fetch_none s hs hf, step_fetch_none t hrun (hfetch.trans hf), h.after_fetchFault⟩
    | some w =>
      have hdec : decode t.config.exitCsr w = decode s.config.exitCsr w := by rw [h.config]
      cases hd : decode s.config.exitCsr w with
      | error e =>
        exact ⟨_, _, step_decode_error s w e hs hf hd, step_decode_error t w e hrun (hfetch.trans hf) (hdec.trans hd),
          h.after_decodeFault w e⟩
      | ok i =>
        rw [step_exec hs hf hd, step_exec hrun (hfetch.trans hf) (hdec.trans hd)]
        exact h.after_exec hM fun _ _ => trivial

/-! ### The obligations -/

/-- Settles O22: the relation is agreement on every register, with canonical memories that hold the same bytes in the buffer. -/
theorem stepDependsOnlyOnTheArchitecturalState : Obligations.StepDependsOnlyOnTheArchitecturalState := by
  intro s t hs ht ⟨hx, hpc, hst, hc, hbytes⟩
  have h : Agree (fun _ => True) (SameBuffer s.config) s t := ⟨fun q _ => hx q, hpc, hst, hc, hs, ht, hbytes⟩
  rcases h.after_step (respectsAccesses_sameBuffer s.config) with ⟨s', t', hs', ht', h'⟩ | hfault
  · refine .inl ⟨s', t', hs', ht', fun q => h'.x q trivial, h'.pc, h'.status, h'.config, ?_⟩
    rw [step_config hs']
    exact h'.mem.read
  · exact .inr hfault

/-- Settles O23: the relation is agreement on every register but the changed one, with equal memories. -/
theorem unnamedRegistersDoNotMatter : Obligations.UnnamedRegistersDoNotMatter := by
  intro i s t u r v hr ht hu
  have h : Agree (· ≠ r) Eq s (s.setX r v) :=
    ⟨fun q hq => by simp [State.x_setX, hq], s.setX_pc r v, s.setX_status r v, s.setX_config r v, (s.setX_mem r v).symm⟩
  obtain ⟨t', u', ht', hu', h'⟩ := h.after_exec (respectsAccesses_eq s.config) (i := i) fun q hq hqr => hr (hqr ▸ hq)
  cases ht.symm.trans ht'
  cases hu.symm.trans hu'
  exact ⟨h'.x, h'.pc, fun a => by rw [State.byte, State.byte, h'.mem], h'.status, h'.config⟩

end Sys2Proof.Machine
end

section
/-! PROOFS. An instruction that accesses no memory is indifferent to it (10_state.md R23, 20_memory.md R48). -/

namespace Sys2Proof.Machine

/-- The effect is neither a load nor a store. -/
def Effect.NoAccess : Effect → Prop
  | .load .. | .store .. => False
  | .writeRd .. | .jump .. | .branch .. | .next | .halt | .fault .. => True

theorem ecallEffect_noAccess (v : Word) : (ecallEffect v).NoAccess := by
  unfold ecallEffect
  split_ifs <;> trivial

theorem effect_noAccess {i : Instr} {s : State} (h : i.checkedRange s = none) : (i.effect s).NoAccess := by
  cases i with
  | lb | lh | lw | lbu | lhu | sb | sh | sw => cases h
  | ecall => exact ecallEffect_noAccess _
  | csrrw rd rs1 csr =>
    simp only [Instr.effect]
    split_ifs <;> trivial
  | _ => trivial

theorem State.setX_withMem (s : State) (m : Memory) (r : Reg) (v : Word) :
    State.setX { s with mem := m } r v = { s.setX r v with mem := m } := by
  unfold State.setX
  split <;> rfl

/-- Writing back an effect that accesses no memory commutes with replacing the memory. -/
theorem retire_withMem {e : Effect} (he : e.NoAccess) (w : Word) (s : State) (m : Memory) :
    retire w e { s with mem := m } = { retire w e s with mem := m } := by
  cases e with
  | load | store => exact he.elim
  | writeRd rd v =>
    rw [retire_writeRd, State.setX_withMem]
    rfl
  | jump rd t =>
    rw [retire_jump, State.setX_withMem]
    rfl
  | branch | next | halt | fault => rfl

/-- Settles O24: the effect is no access and does not depend on the memory, so its write-back commutes with replacing the memory. -/
theorem otherInstructionsIgnoreMemory : Obligations.OtherInstructionsIgnoreMemory := by
  intro i s t m hi ht
  rw [exec_eq_retire] at ht ⊢
  cases ht
  have heff : i.effect { s with mem := m } = i.effect s := i.effect_congr (fun _ _ => rfl) rfl rfl
  rw [heff, retire_withMem (effect_noAccess hi)]

end Sys2Proof.Machine
end

section
/-! PROOFS. The register file by index, the pc at index 32 (10_state.md R20 to R24). -/

namespace Sys2Proof.Machine

/-- The indices below 32 name the general registers one to one. -/
theorem reg_ofNat_inj {i j : Fin 33} (hi : i.val ≠ 32) (hj : j.val ≠ 32) : BitVec.ofNat 5 i.val = BitVec.ofNat 5 j.val ↔ i = j := by
  rw [← BitVec.toNat_inj, BitVec.toNat_ofNat, BitVec.toNat_ofNat, Fin.ext_iff]
  omega

theorem State.readIndex_zero (s : State) : s.readIndex 0 = 0#32 := rfl

theorem State.writeIndex_zero (s : State) (v : Word) : s.writeIndex 0 v = s := rfl

/-- What every index reads after a write to the pc or to a general register other than x0. -/
theorem State.readIndex_writeIndex (s : State) {i : Fin 33} (j : Fin 33) (v : Word) (h0 : i ≠ 0) :
    (s.writeIndex i v).readIndex j = if j = i then v else s.readIndex j := by
  unfold State.writeIndex State.readIndex
  by_cases hi : i.val = 32
  · have hji : j = i ↔ j.val = 32 := by rw [Fin.ext_iff, hi]
    simp only [hi, hji, if_true]
    split_ifs <;> rfl
  · by_cases hj : j.val = 32
    · have hji : j ≠ i := fun h => hi (h ▸ hj)
      simp [hi, hj, hji]
    · have hx0 : j = i → BitVec.ofNat 5 j.val ≠ 0#5 := fun hji hz => h0 (hji ▸ (reg_ofNat_inj hj (j := 0) (by decide)).mp hz)
      simp only [hi, hj, if_false, State.x_setX, reg_ofNat_inj hj hi]
      by_cases hji : j = i
      · rw [if_pos ⟨hji, hx0 hji⟩, if_pos hji]
      · rw [if_neg (fun h => hji h.1), if_neg hji]

/-- Settles O26: x0 reads 0 in every state, so also after any writes; the rest is the one read-after-write law of the indices. -/
theorem registerFileContract : Obligations.RegisterFileContract :=
  ⟨fun _ _ => State.readIndex_zero _, State.writeIndex_zero, fun s _ j v hi => s.readIndex_writeIndex j v hi⟩

end Sys2Proof.Machine
end

section
/-! PROOFS. Reset (10_state.md R34, 70_reset_and_hazards.md R220, R221). -/

namespace Sys2Proof.Machine

theorem resetWith_inv {c : Config} (hc : c.wf) : (State.resetWith c).Inv :=
  ⟨hc, Memory.resetWith_wf c, nofun, nofun⟩

/-- Settles O13: the reset memory lists nothing and the reset status holds no record. -/
theorem resetMeetsTheInvariant : Obligations.ResetMeetsTheInvariant :=
  ⟨resetWith_inv (by decide), fun _ hc => resetWith_inv hc⟩

/-- Settles O48: both resets are `State.resetWith` of some parameters, which are no part of the claim. -/
theorem resetClearsEverything : Obligations.ResetClearsEverything := by
  intro s t ht
  obtain ⟨c, rfl⟩ : ∃ c, t = State.resetWith c := by
    rcases ht with rfl | rfl
    · exact ⟨s.config, rfl⟩
    · exact ⟨referenceConfig, rfl⟩
  exact ⟨State.resetWith_x c, rfl, State.resetWith_byte c, rfl, rfl⟩

end Sys2Proof.Machine
end

section
/-! PROOFS. The canonical form determines a memory by its bytes (20_memory.md R40; log entry 10). -/

namespace Sys2Proof.Machine

theorem Memory.read_cons_self (c : Host.Cell) (m : Memory) : Memory.read (c :: m) c.1 = c.2 := if_pos rfl

/-- The rest of a canonical memory reads 0x00 at the address of its first entry. -/
theorem Memory.read_tail {c : Host.Cell} {m : Memory} (h : Memory.wf (c :: m)) (a : Nat) :
    Memory.read m a = if c.1 = a then 0#8 else Memory.read (c :: m) a := by
  obtain ⟨-, hlt, -⟩ := (Memory.wf_cons c m).mp h
  split_ifs with ha
  · subst ha
    exact Memory.read_of_below m c.1 hlt
  · rw [Memory.read, if_neg ha]

/-- A memory that reads as a canonical one with an entry has an entry at or below that entry's address. -/
theorem Memory.exists_mem_le_of_read_eq {c : Host.Cell} {m n : Memory} (h : Memory.wf (c :: m))
    (hread : Memory.read (c :: m) c.1 = Memory.read n c.1) : ∃ d ∈ n, d.1 ≤ c.1 := by
  obtain ⟨hc, -, -⟩ := (Memory.wf_cons c m).mp h
  by_contra! hbelow
  rw [Memory.read_cons_self, Memory.read_of_below n c.1 hbelow] at hread
  exact hc hread

/-- The first entry of a canonical memory has its lowest address. -/
theorem Memory.head_le_of_mem {c d : Host.Cell} {m : Memory} (h : Memory.wf (c :: m)) (hd : d ∈ c :: m) : c.1 ≤ d.1 := by
  obtain ⟨-, hlt, -⟩ := (Memory.wf_cons c m).mp h
  rcases List.mem_cons.mp hd with rfl | hd
  · exact le_rfl
  · exact (hlt d hd).le

theorem Memory.head_le_of_read_eq {c d : Host.Cell} {m n : Memory} (hm : Memory.wf (c :: m)) (hn : Memory.wf (d :: n))
    (hread : ∀ a, Memory.read (c :: m) a = Memory.read (d :: n) a) : d.1 ≤ c.1 := by
  obtain ⟨e, he, hle⟩ := Memory.exists_mem_le_of_read_eq hm (hread c.1)
  exact (Memory.head_le_of_mem hn he).trans hle

/-- Canonical memories that read the same are equal, by induction on both lists: their first entries agree, and then their rests do. -/
theorem Memory.eq_of_read_eq {m n : Memory} (hm : m.wf) (hn : n.wf) (hread : ∀ a, m.read a = n.read a) : m = n := by
  induction m generalizing n with
  | nil =>
    cases n with
    | nil => rfl
    | cons d n =>
      obtain ⟨e, he, -⟩ := Memory.exists_mem_le_of_read_eq hn (hread d.1).symm
      cases he
  | cons c m ih =>
    cases n with
    | nil =>
      obtain ⟨e, he, -⟩ := Memory.exists_mem_le_of_read_eq hm (hread c.1)
      cases he
    | cons d n =>
      have haddr : c.1 = d.1 :=
        le_antisymm (Memory.head_le_of_read_eq hn hm fun a => (hread a).symm) (Memory.head_le_of_read_eq hm hn hread)
      have hbyte : c.2 = d.2 := by
        rw [← Memory.read_cons_self c m, hread, haddr, Memory.read_cons_self]
      have hrest : m = n := by
        obtain ⟨-, -, hm'⟩ := (Memory.wf_cons c m).mp hm
        obtain ⟨-, -, hn'⟩ := (Memory.wf_cons d n).mp hn
        exact ih hm' hn' fun a => by rw [Memory.read_tail hm, Memory.read_tail hn, haddr, hread]
      rw [hrest, Prod.ext haddr hbyte]

/-- Settles O25, by induction on both lists of entries. -/
theorem canonicalMemoryIsItsBytes : Obligations.CanonicalMemoryIsItsBytes :=
  fun _ _ => Memory.eq_of_read_eq

end Sys2Proof.Machine
end

section
/-! PROOFS. What a load and a store do, once per effect and side of the bounds check (43_load_store.md R160 to R170, 20_memory.md R42 to R48). -/

namespace Sys2Proof.Machine

/-! ### What an instruction with a given effect answers -/

theorem Answers.of_next {o : Host.Outcome State Fault Refusal} {P : State → Prop} {t : State} (h : Answers o P)
    (ht : o = .next t) : P t := by
  obtain ⟨u, hu, hP⟩ := h
  cases ht.symm.trans hu
  exact hP

theorem registerResult_setX_advance (s : State) (rd : Reg) (v : Word) :
    RegisterResult s (s.setX rd v).advance rd v (s.pc + 4#32) :=
  ⟨fun r => State.x_setX s rd r v, by simp, fun a => by simp, by simp, by simp⟩

theorem endedWith_raise (s : State) (w : Option Word) (c : FaultCause) :
    EndedWith s (s.raise w c) (.faulted { cause := c, faultPc := s.pc, word := w }) :=
  ⟨fun _ => rfl, rfl, fun _ => rfl, rfl, rfl⟩

theorem Width.bytes_le_four (n : Width) : n.bytes ≤ 4 := by
  cases n <;> decide

theorem getElem?_storeBytes (n : Width) (v : Word) (k : Nat) :
    (storeBytes n v)[k]? = if k < n.bytes then some (v.extractLsb' (8 * k) 8) else none := by
  rw [storeBytes, List.getElem?_take]
  split_ifs with hk
  · have hk4 : k < 4 := hk.trans_le n.bytes_le_four
    interval_cases k <;> rfl
  · rfl

theorem storeResult_writeBytes_advance {s : State} (hwf : s.mem.wf) (a : Word) (n : Width) (v : Word) :
    StoreResult s ({ s with mem := s.mem.writeBytes a.toNat (storeBytes n v) } : State).advance a n.bytes v := by
  refine ⟨fun k hk => ?_, fun b hb => ?_, fun _ => rfl, rfl, rfl, rfl⟩ <;>
    rw [State.advance_byte, State.withMem_byte, Memory.read_writeBytes _ _ _ hwf, getElem?_storeBytes]
  · rw [if_pos (Nat.le_add_right _ _), Nat.add_sub_cancel_left, if_pos hk]
    rfl
  · rcases hb with hb | hb
    · rw [if_neg (by omega)]
      rfl
    · rw [if_pos (by omega), if_neg (by omega)]
      rfl

section Accesses

variable {i : Instr} {s : State} {rd : Reg} {a : Word} {n : Width} {sg : Bool} {v : Word}

theorem exec_load_in {raw : Word} (hi : i.effect s = .load rd a n sg) (hraw : s.read32 a = some raw) :
    Answers (exec i s) fun t => RegisterResult s t rd (loadExtend n sg raw) (s.pc + 4#32) := by
  refine ⟨_, exec_eq_retire i s, ?_⟩
  simp only [hi, retire, hraw]
  exact registerResult_setX_advance s rd _

theorem exec_load_out (hi : i.effect s = .load rd a n sg) (hb : ¬ inBounds s.config a 4) :
    Answers (exec i s) fun t => EndedWith s t
      (.faulted { cause := .outOfBounds a .word, faultPc := s.pc, word := some (encode s.config.exitCsr i) }) := by
  refine ⟨_, exec_eq_retire i s, ?_⟩
  rw [hi, retire_load_out _ rd a n sg s hb]
  exact endedWith_raise s _ _

theorem exec_store_in (hwf : s.mem.wf) (hi : i.effect s = .store a n v) (hb : inBounds s.config a n.bytes) :
    Answers (exec i s) fun t => StoreResult s t a n.bytes v := by
  refine ⟨_, exec_eq_retire i s, ?_⟩
  rw [hi, retire_store_in _ a n v s hb]
  exact storeResult_writeBytes_advance hwf a n v

theorem exec_store_out (hi : i.effect s = .store a n v) (hb : ¬ inBounds s.config a n.bytes) :
    Answers (exec i s) fun t => EndedWith s t
      (.faulted { cause := .outOfBounds a n, faultPc := s.pc, word := some (encode s.config.exitCsr i) }) := by
  refine ⟨_, exec_eq_retire i s, ?_⟩
  rw [hi, retire_store_out _ a n v s hb]
  exact endedWith_raise s _ _

end Accesses

/-! ### What a load keeps of the bytes it reads (20_memory.md R45, 43_load_store.md R161) -/

section Kept

variable (b0 b1 b2 b3 : Byte)

theorem extractLsb'_wordOfBytes_byte : (wordOfBytes b0 b1 b2 b3).extractLsb' 0 8 = b0 :=
  BitVec.extractLsb'_append_eq_right

theorem extractLsb'_wordOfBytes_half : (wordOfBytes b0 b1 b2 b3).extractLsb' 0 16 = b1 ++ b0 := by
  rw [wordOfBytes, BitVec.append_assoc]
  exact BitVec.extractLsb'_append_eq_right

theorem loadExtend_signed_byte :
    loadExtend .byte true (wordOfBytes b0 b1 b2 b3) = BitVec.ofInt 32 b0.toInt := by
  rw [loadExtend, extractLsb'_wordOfBytes_byte]
  rfl

theorem loadExtend_unsigned_byte :
    loadExtend .byte false (wordOfBytes b0 b1 b2 b3) = BitVec.ofNat 32 b0.toNat := by
  rw [loadExtend, extractLsb'_wordOfBytes_byte, zext32, BitVec.ofNat_toNat]

theorem loadExtend_signed_half :
    loadExtend .half true (wordOfBytes b0 b1 b2 b3) = BitVec.ofInt 32 (b1 ++ b0).toInt := by
  rw [loadExtend, extractLsb'_wordOfBytes_half]
  rfl

theorem loadExtend_unsigned_half :
    loadExtend .half false (wordOfBytes b0 b1 b2 b3) = BitVec.ofNat 32 (b1 ++ b0).toNat := by
  rw [loadExtend, extractLsb'_wordOfBytes_half, zext32, BitVec.ofNat_toNat]

end Kept

/-! ### The obligations on one access -/

/-- Settles O40: each load is `exec_load_in` with the four bytes there, of which it keeps the low byte, the low half or all. -/
theorem loadResults : Obligations.LoadResults := by
  rintro s rd rs1 imm a rfl hb
  have hraw := State.read32_in s _ hb
  refine ⟨?lb, ?lh, ?lw, ?lbu, ?lhu⟩
  case lb => simpa only [loadExtend_signed_byte] using exec_load_in (i := .lb rd rs1 imm) rfl hraw
  case lh => simpa only [loadExtend_signed_half] using exec_load_in (i := .lh rd rs1 imm) rfl hraw
  case lw => exact exec_load_in (i := .lw rd rs1 imm) rfl hraw
  case lbu => simpa only [loadExtend_unsigned_byte] using exec_load_in (i := .lbu rd rs1 imm) rfl hraw
  case lhu => simpa only [loadExtend_unsigned_half] using exec_load_in (i := .lhu rd rs1 imm) rfl hraw

/-- Settles O41: all five are loads, and a load checks four bytes whatever its width. -/
theorem loadsOutOfBoundsFault : Obligations.LoadsOutOfBoundsFault := by
  rintro s rd rs1 imm a i rfl hb hi
  obtain ⟨n, sg, heffect⟩ : ∃ n sg, i.effect s = .load rd (effectiveAddress (s.x rs1) (immI imm)) n sg := by
    simp only [List.mem_cons, List.not_mem_nil, or_false] at hi
    rcases hi with rfl | rfl | rfl | rfl | rfl <;> exact ⟨_, _, rfl⟩
  exact exec_load_out heffect hb

/-- Settles O42: each store is `exec_store_in` at its own width. -/
theorem storeResults : Obligations.StoreResults := by
  rintro s rs1 rs2 imm a hwf rfl
  exact ⟨exec_store_in (n := .byte) hwf rfl, exec_store_in (n := .half) hwf rfl, exec_store_in (n := .word) hwf rfl⟩

/-- Settles O43: each store is `exec_store_out` at its own width. -/
theorem storesOutOfBoundsFault : Obligations.StoresOutOfBoundsFault := by
  rintro s rs1 rs2 imm a rfl
  exact ⟨exec_store_out (n := .byte) rfl, exec_store_out (n := .half) rfl, exec_store_out (n := .word) rfl⟩

end Sys2Proof.Machine
end

section
/-! PROOFS. What a load or a fetch finds where a store has just written (20_memory.md R47, R54). -/

namespace Sys2Proof.Machine

/-- A load looks only at the bytes of its own width, although four are read (20_memory.md R45). -/
theorem loadExtend_congr_bytes {n : Width} {b c : Nat → Byte} (h : ∀ k < n.bytes, b k = c k) (sg : Bool) :
    loadExtend n sg (wordOfBytes (b 0) (b 1) (b 2) (b 3)) = loadExtend n sg (wordOfBytes (c 0) (c 1) (c 2) (c 3)) := by
  cases n with
  | byte =>
    have h0 := h 0 (by decide)
    cases sg <;> simp only [loadExtend, extractLsb'_wordOfBytes_byte, h0]
  | half =>
    have h0 := h 0 (by decide)
    have h1 := h 1 (by decide)
    cases sg <;> simp only [loadExtend, extractLsb'_wordOfBytes_half, h0, h1]
  | word => rw [h 0 (by decide), h 1 (by decide), h 2 (by decide), h 3 (by decide)]

/-- A load keeps the same of the bytes a store of its width took from a value as of the whole value. -/
theorem loadExtend_of_stored_bytes {n : Width} {v : Word} {b : Nat → Byte} (hb : ∀ k < n.bytes, b k = v.extractLsb' (8 * k) 8)
    (sg : Bool) : loadExtend n sg (wordOfBytes (b 0) (b 1) (b 2) (b 3)) = loadExtend n sg v :=
  (loadExtend_congr_bytes hb sg).trans (congrArg (loadExtend n sg) (wordOfBytes_bytes v))

section StoredBytes

variable {s t : State} {a : Word} {n : Width} {v : Word}

/-- Where the four bytes are in the memory, a load of the stored width keeps what the store wrote. -/
theorem StoreResult.exists_read32 (h : StoreResult s t a n.bytes v) (hb : inBounds s.config a 4) (sg : Bool) :
    ∃ raw, t.read32 a = some raw ∧ loadExtend n sg raw = loadExtend n sg v := by
  obtain ⟨hbytes, -, -, -, -, hc⟩ := h
  exact ⟨_, State.read32_in t a (hc ▸ hb), loadExtend_of_stored_bytes (b := fun k => t.byte (a.toNat + k)) hbytes sg⟩

/-- A load of the stored width at the stored address, whatever the instructions, gives what it keeps of the stored value. -/
theorem exec_load_after_store {i j : Instr} {b : Word} {rd : Reg} {sg : Bool} (hwf : s.mem.wf) (hi : i.effect s = .store a n v)
    (hb : inBounds s.config a 4) (ht : exec i s = .next t) (hj : j.effect t = .load rd b n sg) (hba : b = a) :
    Answers (exec j t) fun u => RegisterResult t u rd (loadExtend n sg v) (t.pc + 4#32) := by
  have hin : inBounds s.config a n.bytes := ⟨hb.1, (Nat.add_le_add_left n.bytes_le_four _).trans hb.2⟩
  have hstored := (exec_store_in hwf hi hin).of_next ht
  obtain ⟨raw, hraw, hkept⟩ := hstored.exists_read32 hb sg
  exact hkept ▸ exec_load_in (hba ▸ hj) hraw

end StoredBytes

/-- Settles O27: each pair is a store and a load of one width at one address. -/
theorem loadReturnsWhatWasStored : Obligations.LoadReturnsWhatWasStored := by
  intro s t rs1 rs2 rb rd immStore immLoad hwf hb haddr
  refine ⟨fun ht => ?sw_lw, fun ht => ⟨?sh_lh, ?sh_lhu⟩, fun ht => ⟨?sb_lb, ?sb_lbu⟩⟩
  case sw_lw => exact exec_load_after_store (n := .word) (sg := true) hwf rfl hb ht rfl haddr
  case sh_lh => exact exec_load_after_store (n := .half) (sg := true) hwf rfl hb ht rfl haddr
  case sh_lhu => exact exec_load_after_store (n := .half) (sg := false) hwf rfl hb ht rfl haddr
  case sb_lb => exact exec_load_after_store (n := .byte) (sg := true) hwf rfl hb ht rfl haddr
  case sb_lbu => exact exec_load_after_store (n := .byte) (sg := false) hwf rfl hb ht rfl haddr

/-- Settles O28: the next fetch reads the four bytes the store wrote, which make the stored word again. -/
theorem storedWordIsExecutedNext : Obligations.StoredWordIsExecutedNext := by
  intro s t rs1 rs2 imm i hwf hrun haddr hb ht hd
  have hstored : StoreResult s t (s.pc + 4#32) 4 (s.x rs2) :=
    haddr ▸ (exec_store_in (n := .word) hwf rfl (haddr ▸ hb)).of_next ht
  obtain ⟨raw, hraw, hkept⟩ := StoreResult.exists_read32 (n := .word) hstored hb false
  obtain ⟨-, -, -, hpc, hst, hc⟩ := hstored
  have hfetch : fetch t = some (s.x rs2) := by
    rw [fetch, hpc, hraw]
    exact congrArg some hkept
  exact step_exec (hst.trans hrun) hfetch (hc ▸ hd)

end Sys2Proof.Machine
end

section
/-! PROOFS. Which steps raise OutOfBounds (60_exceptions.md R201). -/

namespace Sys2Proof.Machine

/-- The run has ended with OutOfBounds at this address and length. -/
def EndedOutOfBounds (t : State) (a : Word) (n : Width) : Prop := ∃ r, t.status = .faulted r ∧ r.cause = .outOfBounds a n

theorem endedOutOfBounds_raise {s : State} {w : Option Word} {c : FaultCause} {a : Word} {n : Width} :
    EndedOutOfBounds (s.raise w c) a n ↔ c = .outOfBounds a n := by
  simp [EndedOutOfBounds]

theorem not_endedOutOfBounds_decodeFault (s : State) (w : Word) (e : DecodeError) (a : Word) (n : Width) :
    ¬ EndedOutOfBounds (decodeFault s w e) a n := by
  cases e <;> exact fun h => nomatch endedOutOfBounds_raise.mp h

/-- The range write-back checks for an effect: four bytes for a load of any width, its own width for a store (20_memory.md R48). -/
def Effect.checkedRange : Effect → Option (Word × Width)
  | .load _ a _ _ => some (a, .word)
  | .store a n _ => some (a, n)
  | .writeRd .. | .jump .. | .branch .. | .next | .halt | .fault .. => none

theorem Effect.checkedRange_eq_none {e : Effect} (h : e.NoAccess) : e.checkedRange = none := by
  cases e with
  | load | store => exact h.elim
  | writeRd | jump | branch | next | halt | fault => rfl

theorem checkedRange_effect (i : Instr) (s : State) : (i.effect s).checkedRange = i.checkedRange s := by
  cases hi : i.checkedRange s with
  | none => exact Effect.checkedRange_eq_none (effect_noAccess hi)
  | some r => cases i <;> cases hi <;> rfl

theorem effect_faultsOnlyOnStatus (i : Instr) (s : State) : (i.effect s).FaultsOnlyOnStatus s := by
  cases i with
  | ecall => exact ecallEffect_faultsOnlyOnStatus s
  | csrrw rd rs1 csr =>
    intro c hc
    simp only [Instr.effect] at hc
    split_ifs at hc
  | _ => exact nofun

theorem retire_out_of_checkedRange {s : State} {e : Effect} {b : Word} {m : Width} (h : e.checkedRange = some (b, m))
    (hout : ¬ inBounds s.config b m.bytes) (w : Word) : retire w e s = s.raise (some w) (.outOfBounds b m) := by
  cases e with
  | load rd b' m' sg =>
    cases h
    exact retire_load_out w rd b m' sg s hout
  | store b' m' v =>
    cases h
    exact retire_store_out w b m v s hout
  | writeRd | jump | branch | next | halt | fault => cases h

/-- Write-back whose checked range is inside the memory raises no fault but the one the effect itself is. -/
theorem retire_status_of_in_bounds {s : State} {e : Effect}
    (hin : ∀ b m, e.checkedRange = some (b, m) → inBounds s.config b m.bytes) (w : Word) :
    (retire w e s).status = s.status ∨ (retire w e s).status = .halted ∨
      ∃ c, e = .fault c ∧ retire w e s = s.raise (some w) c := by
  cases e with
  | writeRd rd v => exact .inl (s.setX_status rd v)
  | jump rd p => exact .inl (s.setX_status rd s.nextPc)
  | load rd b m sg =>
    rw [retire_load_in w rd b m sg s (hin b .word rfl)]
    exact .inl (s.setX_status rd _)
  | store b m v =>
    rw [retire_store_in w b m v s (hin b m rfl)]
    exact .inl rfl
  | branch | next => exact .inl rfl
  | halt => exact .inr (.inl rfl)
  | fault c => exact .inr (.inr ⟨c, rfl, rfl⟩)

/-- Write-back ends with OutOfBounds exactly where the range it checks is not inside the memory. -/
theorem retire_endedOutOfBounds_iff {s : State} {e : Effect} (hrun : s.status = .running) (he : e.FaultsOnlyOnStatus s) (w : Word)
    (a : Word) (n : Width) :
    EndedOutOfBounds (retire w e s) a n ↔ e.checkedRange = some (a, n) ∧ ¬ inBounds s.config a n.bytes := by
  by_cases hin : ∀ b m, e.checkedRange = some (b, m) → inBounds s.config b m.bytes
  · refine iff_of_false (fun hended => ?_) fun ⟨hrange, hout⟩ => hout (hin a n hrange)
    rcases retire_status_of_in_bounds hin w with hst | hst | ⟨c, hfault, hraise⟩
    · obtain ⟨r, hr, -⟩ := hended
      exact State.not_faulted_of_running (hst.trans hrun) r hr
    · obtain ⟨r, hr, -⟩ := hended
      cases hst.symm.trans hr
    · obtain ⟨rfl, -⟩ := he c hfault
      rw [hraise, endedOutOfBounds_raise] at hended
      cases hended
  · push Not at hin
    obtain ⟨b, m, hrange, hout⟩ := hin
    rw [retire_out_of_checkedRange hrange hout, endedOutOfBounds_raise, hrange]
    constructor
    · rintro ⟨⟩
      exact ⟨rfl, hout⟩
    · rintro ⟨⟨⟩, -⟩
      rfl

theorem inBounds_of_fetch_some {s : State} {w : Word} (h : fetch s = some w) : inBounds s.config s.pc 4 := by
  by_contra hb
  cases h.symm.trans (State.read32_out s s.pc hb)

/-- Settles O20: a fetch that finds no word raises it for the pc, a word that is no instruction never, and an instruction exactly where
write-back finds the range it checks outside the memory. -/
theorem outOfBoundsExactlyOutsideTheMemory : Obligations.OutOfBoundsExactlyOutsideTheMemory := by
  intro s t a n hstep
  change EndedOutOfBounds t a n ↔ _
  obtain ⟨hrun, ⟨hf, rfl⟩ | ⟨w, e, hf, hd, rfl⟩ | ⟨w, i, hf, hd, hexec⟩⟩ := step_cases s t hstep
  · have hout := not_inBounds_of_fetch_none hf
    simp [fetchFault, endedOutOfBounds_raise, hf, hout, eq_comm]
  · have hin := inBounds_of_fetch_some hf
    simp [not_endedOutOfBounds_decodeFault, hf, hin, hd]
  · have hin := inBounds_of_fetch_some hf
    cases (exec_eq_retire i s).symm.trans hexec
    rw [retire_endedOutOfBounds_iff hrun (effect_faultsOnlyOnStatus i s), checkedRange_effect]
    simp [hf, hin, hd]

end Sys2Proof.Machine
end

section
/-! PROOFS. The decoder undoes the encoder on every well-formed instruction, and answers well-formed instructions only
(30_encoding.md R72 to R82). -/

namespace Sys2Proof

open Laws.EncodedClass (classOf)

/-! ### The decoder's fields of an encoded word -/

section Fields

variable (f7 op : BitVec 7) (rs2 rs1 rd : Reg) (f3 : BitVec 3)

@[simp] theorem rdOf_encodeR : rdOf (encodeR f7 rs2 rs1 f3 rd op) = rd := encodeR_slice_7 ..
@[simp] theorem funct3Of_encodeR : funct3Of (encodeR f7 rs2 rs1 f3 rd op) = f3 := encodeR_slice_12 ..
@[simp] theorem rs1Of_encodeR : rs1Of (encodeR f7 rs2 rs1 f3 rd op) = rs1 := encodeR_slice_15 ..
@[simp] theorem rs2Of_encodeR : rs2Of (encodeR f7 rs2 rs1 f3 rd op) = rs2 := encodeR_slice_20 ..
@[simp] theorem funct7Of_encodeR : funct7Of (encodeR f7 rs2 rs1 f3 rd op) = f7 := encodeR_slice_25 ..

variable (imm : BitVec 12)

@[simp] theorem rdOf_encodeI : rdOf (encodeI imm rs1 f3 rd op) = rd := encodeI_slice_7 ..
@[simp] theorem funct3Of_encodeI : funct3Of (encodeI imm rs1 f3 rd op) = f3 := encodeI_slice_12 ..
@[simp] theorem rs1Of_encodeI : rs1Of (encodeI imm rs1 f3 rd op) = rs1 := encodeI_slice_15 ..
@[simp] theorem immIOf_encodeI : immIOf (encodeI imm rs1 f3 rd op) = imm := encodeI_slice_20 ..

@[simp] theorem funct3Of_encodeS : funct3Of (encodeS imm rs2 rs1 f3 op) = f3 := encodeS_slice_12 ..
@[simp] theorem rs1Of_encodeS : rs1Of (encodeS imm rs2 rs1 f3 op) = rs1 := encodeS_slice_15 ..
@[simp] theorem rs2Of_encodeS : rs2Of (encodeS imm rs2 rs1 f3 op) = rs2 := encodeS_slice_20 ..

@[simp] theorem immSOf_encodeS : immSOf (encodeS imm rs2 rs1 f3 op) = imm := by
  rw [immSOf, encodeS_slice_25, encodeS_slice_7]
  exact BitVec.extractLsb'_append_extractLsb'_eq_extractLsb' rfl |>.trans (slice_self imm)

variable (immB : BitVec 13)

@[simp] theorem funct3Of_encodeB : funct3Of (encodeB immB rs2 rs1 f3 op) = f3 := encodeB_slice_12 ..
@[simp] theorem rs1Of_encodeB : rs1Of (encodeB immB rs2 rs1 f3 op) = rs1 := encodeB_slice_15 ..
@[simp] theorem rs2Of_encodeB : rs2Of (encodeB immB rs2 rs1 f3 op) = rs2 := encodeB_slice_20 ..

@[simp] theorem rdOf_encodeU (imm : BitVec 20) : rdOf (encodeU imm rd op) = rd := encodeU_slice_7 ..
@[simp] theorem immUOf_encodeU (imm : BitVec 20) : immUOf (encodeU imm rd op) = imm := encodeU_slice_12 ..

@[simp] theorem rdOf_encodeJ (imm : BitVec 21) : rdOf (encodeJ imm rd op) = rd := encodeJ_slice_7 ..

end Fields

/-- An even offset ends in the bit 0 that the format leaves out (30_encoding.md R69, R71). -/
theorem slice_zero_of_evenOffset {n : Nat} {imm : BitVec n} (h : evenOffset imm = true) : imm.extractLsb' 0 1 = 0#1 := by
  ext i hi
  obtain rfl : i = 0 := by omega
  simpa [evenOffset] using h

theorem immBOf_encodeB {imm : BitVec 13} (h : evenOffset imm = true) (rs2 rs1 : Reg) (f3 : BitVec 3) (op : BitVec 7) :
    immBOf (encodeB imm rs2 rs1 f3 op) = imm := by
  rw [immBOf, encodeB_slice_31, encodeB_slice_7, encodeB_slice_25, encodeB_slice_8, ← slice_zero_of_evenOffset h]
  ext i hi
  simp only [BitVec.getElem_append, BitVec.getElem_extractLsb']
  split_ifs <;> (rw [BitVec.getLsbD_eq_getElem (by omega)]; congr 1; omega)

theorem immJOf_encodeJ {imm : BitVec 21} (h : evenOffset imm = true) (rd : Reg) (op : BitVec 7) :
    immJOf (encodeJ imm rd op) = imm := by
  rw [immJOf, encodeJ_slice_31, encodeJ_slice_12, encodeJ_slice_20, encodeJ_slice_21, ← slice_zero_of_evenOffset h]
  ext i hi
  simp only [BitVec.getElem_append, BitVec.getElem_extractLsb']
  split_ifs <;> (rw [BitVec.getLsbD_eq_getElem (by omega)]; congr 1; omega)

/-! ### The class of a word and the decoder of that class -/

/-- What the decoder makes of a word of a class (30_encoding.md R75 to R82). -/
def OpClass.decodeWord (x : BitVec 12) (w : Word) : OpClass → Except DecodeError Instr
  | .lui => .ok (.lui (rdOf w) (immUOf w))
  | .auipc => .ok (.auipc (rdOf w) (immUOf w))
  | .jal => .ok (.jal (rdOf w) (immJOf w))
  | .jalr => decodeJalr w
  | .branch => decodeBranch w
  | .load => decodeLoad w
  | .store => decodeStore w
  | .imm => decodeImm w
  | .op => decodeOp w
  | .miscFence => decodeMiscFence w
  | .system => decodeSystem x w

theorem decode_of_class {w : Word} {k : OpClass} (h : opcodeClass (opcodeOf w) = some k) (x : BitVec 12) :
    decode x w = k.decodeWord x w := by
  simp only [decode, h]
  cases k <;> rfl

theorem decode_of_no_class {w : Word} (h : opcodeClass (opcodeOf w) = none) (x : BitVec 12) :
    decode x w = .error .unsupportedOpcode := by
  simp only [decode, h]

/-- The law of `Laws.EncodedClass`, for every instruction at once: the opcode sits in the lowest slice of all six formats. -/
theorem opcodeClass_encode (x : BitVec 12) (i : Instr) : opcodeClass (opcodeOf (encode x i)) = some (classOf i) := by
  cases i
  case lui | auipc => exact congrArg opcodeClass (encodeU_slice_0 ..)
  case jal => exact congrArg opcodeClass (encodeJ_slice_0 ..)
  case beq | bne | blt | bge | bltu | bgeu => exact congrArg opcodeClass (encodeB_slice_0 ..)
  case sb | sh | sw => exact congrArg opcodeClass (encodeS_slice_0 ..)
  case add | sub | sll | slt | sltu | xor | srl | sra | or | and | slli | srli | srai =>
    exact congrArg opcodeClass (encodeR_slice_0 ..)
  all_goals exact congrArg opcodeClass (encodeI_slice_0 ..)

/-! ### The two directions -/

/-- By class, so that each case runs its own class decoder only. -/
theorem decode_encode {c : Config} {i : Instr} (h : i.wellFormed c = true) : decode c.exitCsr (encode c.exitCsr i) = .ok i := by
  rw [decode_of_class (opcodeClass_encode c.exitCsr i)]
  cases i <;> simp only [classOf, OpClass.decodeWord, encode, Instr.wellFormed, decide_eq_true_eq] at h ⊢
  case lui | auipc => simp
  case jal => rw [rdOf_encodeJ, immJOf_encodeJ h]
  case jalr => simp [decodeJalr]
  case beq | bne | blt | bge | bltu | bgeu => simp [decodeBranch, immBOf_encodeB h]
  case lb | lh | lw | lbu | lhu => simp [decodeLoad]
  case sb | sh | sw => simp [decodeStore]
  case addi | slti | sltiu | xori | ori | andi => simp [decodeImm]
  case slli | srli | srai => simp [decodeImm, decodeShiftImm]
  case add | sub | sll | slt | sltu | xor | srl | sra | or | and => simp [decodeOp]
  case fence | fenceI => simp [decodeMiscFence]
  case csrrw => simp [decodeSystem, h]
  case ecall | csrrwExit | csrrs | csrrc | csrrwi | csrrsi | csrrci => simp [decodeSystem]

theorem evenOffset_immBOf (w : Word) : evenOffset (immBOf w) = true := by
  obtain ⟨-, -, -, -, h0⟩ := immBOf_slice w
  rw [evenOffset, h0]
  rfl

theorem evenOffset_immJOf (w : Word) : evenOffset (immJOf w) = true := by
  obtain ⟨-, -, -, -, h0⟩ := immJOf_slice w
  rw [evenOffset, h0]
  rfl

theorem wellFormed_of_decodeBranch {w : Word} {i : Instr} (h : decodeBranch w = .ok i) (c : Config) : i.wellFormed c = true := by
  unfold decodeBranch at h
  split at h <;> cases h
  all_goals exact evenOffset_immBOf w

theorem wellFormed_of_decodeSystem {c : Config} {w : Word} {i : Instr} (h : decodeSystem c.exitCsr w = .ok i) :
    i.wellFormed c = true := by
  unfold decodeSystem at h
  split at h
  case h_2 =>
    split at h <;> cases h
    · rfl
    · exact decide_eq_true ‹_›
  case h_8 => cases h
  all_goals
    cases h
    rfl

/-- Only three classes hold a term that no word decodes to (30_encoding.md R69, R71, 44_system.md R187). -/
theorem wellFormed_or_class (c : Config) (i : Instr) :
    i.wellFormed c = true ∨ classOf i = .jal ∨ classOf i = .branch ∨ classOf i = .system := by
  cases i <;> simp [Instr.wellFormed, classOf]

theorem wellFormed_of_decode {c : Config} {w : Word} {i : Instr} (h : decode c.exitCsr w = .ok i) : i.wellFormed c = true := by
  have hclass : opcodeClass (opcodeOf w) = some (classOf i) := encode_of_decode h ▸ opcodeClass_encode c.exitCsr i
  rw [decode_of_class hclass] at h
  obtain hwf | hjal | hbranch | hsystem := wellFormed_or_class c i
  · exact hwf
  · rw [hjal] at h
    cases h
    exact evenOffset_immJOf w
  · rw [hbranch] at h
    exact wellFormed_of_decodeBranch h c
  · rw [hsystem] at h
    exact wellFormed_of_decodeSystem h

/-- Settles O1: by class, the selectors in the encoded word choose the row, and each field is read where the format put it. -/
theorem decodeOfEncodeIsTheInstruction : Obligations.DecodeOfEncodeIsTheInstruction := fun _ _ => decode_encode

/-- Settles O2: the round trip by class, and well-formedness in the three classes that can miss it. -/
theorem encodeOfDecodeIsTheWord : Obligations.EncodeOfDecodeIsTheWord := fun _ _ _ h =>
  ⟨encode_of_decode h, wellFormed_of_decode h⟩

end Sys2Proof
end

section
/-! PROOFS. The rows of the opcode table (30_encoding.md R74 to R82): a word that matches a row is the encoding of the row's instruction. -/

namespace Sys2Proof

/-- Where a mask has every bit of a field, the pattern fixes that field. -/
theorem slice_of_mask {w mask p : Word} (h : w &&& mask = p) {lo k : Nat} (hk : mask.extractLsb' lo k = BitVec.allOnes k) :
    w.extractLsb' lo k = p.extractLsb' lo k := by
  rw [← h, BitVec.extractLsb'_and, hk, BitVec.and_allOnes]

/-! A word that matches a row's mask and pattern is the row's format with the pattern's selectors and the word's other fields. -/

section Masks

variable {w p : Word}

theorem encodeR_of_mask (h : w &&& 0xFE00707F#32 = p) :
    encodeR (funct7Of p) (rs2Of w) (rs1Of w) (funct3Of p) (rdOf w) (opcodeOf p) = w :=
  encodeR_of_selectors (slice_of_mask h rfl) (slice_of_mask h rfl) (slice_of_mask h rfl)

theorem encodeI_of_mask (h : w &&& 0x0000707F#32 = p) :
    encodeI (immIOf w) (rs1Of w) (funct3Of p) (rdOf w) (opcodeOf p) = w :=
  encodeI_of_selectors (slice_of_mask h rfl) (slice_of_mask h rfl)

theorem encodeS_of_mask (h : w &&& 0x0000707F#32 = p) :
    encodeS (immSOf w) (rs2Of w) (rs1Of w) (funct3Of p) (opcodeOf p) = w :=
  encodeS_of_selectors (slice_of_mask h rfl) (slice_of_mask h rfl)

theorem encodeB_of_mask (h : w &&& 0x0000707F#32 = p) :
    encodeB (immBOf w) (rs2Of w) (rs1Of w) (funct3Of p) (opcodeOf p) = w :=
  encodeB_of_selectors (slice_of_mask h rfl) (slice_of_mask h rfl)

theorem encodeU_of_mask (h : w &&& 0x0000007F#32 = p) :
    encodeU (immUOf w) (rdOf w) (opcodeOf p) = w :=
  encodeU_of_opcode (slice_of_mask h rfl)

theorem encodeJ_of_mask (h : w &&& 0x0000007F#32 = p) :
    encodeJ (immJOf w) (rdOf w) (opcodeOf p) = w :=
  encodeJ_of_opcode (slice_of_mask h rfl)

end Masks

theorem decode_of_encode_eq {c : Config} {w : Word} {i : Instr} (h : encode c.exitCsr i = w) (hwf : i.wellFormed c = true) :
    decode c.exitCsr w = .ok i := by
  subst h
  exact decode_encode hwf

/-- Settles O4: by the row's format, the word is the encoding of the row's instruction on the word's fields, which decodes back.
The ascription `( :)` fixes the row's pattern before the two encodings are compared. -/
theorem opcodeTableRowsDecodeAsListed : Obligations.OpcodeTableRowsDecodeAsListed := by
  intro x w
  obtain ⟨c, rfl⟩ : ∃ c : Config, c.exitCsr = x := ⟨{ memSize := 4, exitCsr := x }, rfl⟩
  refine ⟨?add, ?sub, ?sll, ?slt, ?sltu, ?xor, ?srl, ?sra, ?or, ?and, ?addi, ?slti, ?sltiu, ?xori, ?ori, ?andi, ?slli, ?srli, ?srai,
    ?lui, ?auipc, ?jal, ?jalr, ?beq, ?bne, ?blt, ?bge, ?bltu, ?bgeu, ?lb, ?lh, ?lw, ?lbu, ?lhu, ?sb, ?sh, ?sw, ?fence, ?fenceI,
    ?ecall, ?csrrwExit, ?csrrw, ?csrrs, ?csrrc, ?csrrwi, ?csrrsi, ?csrrci⟩ <;> intro h
  case add | sub | sll | slt | sltu | xor | srl | sra | or | and | slli | srli | srai =>
    exact decode_of_encode_eq (encodeR_of_mask h :) rfl
  case beq | bne | blt | bge | bltu | bgeu => exact decode_of_encode_eq (encodeB_of_mask h :) (evenOffset_immBOf w)
  case sb | sh | sw => exact decode_of_encode_eq (encodeS_of_mask h :) rfl
  case lui | auipc => exact decode_of_encode_eq (encodeU_of_mask h :) rfl
  case jal => exact decode_of_encode_eq (encodeJ_of_mask h :) (evenOffset_immJOf w)
  case csrrwExit =>
    intro hx
    have hw := encodeI_of_mask h
    rw [hx] at hw
    exact decode_of_encode_eq hw rfl
  case csrrw =>
    intro hx
    exact decode_of_encode_eq (encodeI_of_mask h :) (decide_eq_true hx)
  all_goals exact decode_of_encode_eq (encodeI_of_mask h :) rfl

end Sys2Proof
end

section
/-! PROOFS. Which words the decoder refuses, class by class (30_encoding.md R74 to R83). -/

namespace Sys2Proof

theorem funct3_cases (f : BitVec 3) :
    f = 0b000#3 ∨ f = 0b001#3 ∨ f = 0b010#3 ∨ f = 0b011#3 ∨ f = 0b100#3 ∨ f = 0b101#3 ∨ f = 0b110#3 ∨ f = 0b111#3 := by
  revert f
  decide

/-! ### A class decoder refuses by `unsupportedFunct3` only, and exactly at its reserved selectors -/

section ClassDecoders

variable {w : Word} {e : DecodeError}

theorem decodeOp_eq_error : decodeOp w = .error e ↔ e = .unsupportedFunct3 ∧
    (funct7Of w ∉ [0b0000000#7, 0b0100000#7] ∨ (funct7Of w = 0b0100000#7 ∧ funct3Of w ∉ [0b000#3, 0b101#3])) := by
  by_cases h0 : funct7Of w = 0b0000000#7
  · rcases funct3_cases (funct3Of w) with h3 | h3 | h3 | h3 | h3 | h3 | h3 | h3 <;> simp [decodeOp, h0, h3]
  · by_cases h1 : funct7Of w = 0b0100000#7
    · rcases funct3_cases (funct3Of w) with h3 | h3 | h3 | h3 | h3 | h3 | h3 | h3 <;> simp [decodeOp, h1, h3, eq_comm]
    · simp [decodeOp, h0, h1, eq_comm]

theorem decodeShiftImm_eq_error : decodeShiftImm w = .error e ↔ e = .unsupportedFunct3 ∧
    ¬ (funct7Of w = 0b0000000#7 ∧ funct3Of w ∈ [0b001#3, 0b101#3] ∨ funct7Of w = 0b0100000#7 ∧ funct3Of w = 0b101#3) := by
  unfold decodeShiftImm
  split <;> simp_all [eq_comm]

theorem decodeImm_eq_error : decodeImm w = .error e ↔ e = .unsupportedFunct3 ∧
    ((funct3Of w = 0b001#3 ∧ funct7Of w ≠ 0b0000000#7) ∨ (funct3Of w = 0b101#3 ∧ funct7Of w ∉ [0b0000000#7, 0b0100000#7])) := by
  rcases funct3_cases (funct3Of w) with h3 | h3 | h3 | h3 | h3 | h3 | h3 | h3 <;>
    simp [decodeImm, h3, decodeShiftImm_eq_error]

theorem decodeBranch_eq_error : decodeBranch w = .error e ↔ e = .unsupportedFunct3 ∧ funct3Of w ∈ [0b010#3, 0b011#3] := by
  rcases funct3_cases (funct3Of w) with h3 | h3 | h3 | h3 | h3 | h3 | h3 | h3 <;> simp [decodeBranch, h3, eq_comm]

theorem decodeLoad_eq_error : decodeLoad w = .error e ↔ e = .unsupportedFunct3 ∧ funct3Of w ∈ [0b011#3, 0b110#3, 0b111#3] := by
  rcases funct3_cases (funct3Of w) with h3 | h3 | h3 | h3 | h3 | h3 | h3 | h3 <;> simp [decodeLoad, h3, eq_comm]

theorem decodeStore_eq_error : decodeStore w = .error e ↔ e = .unsupportedFunct3 ∧ funct3Of w ∉ [0b000#3, 0b001#3, 0b010#3] := by
  rcases funct3_cases (funct3Of w) with h3 | h3 | h3 | h3 | h3 | h3 | h3 | h3 <;> simp [decodeStore, h3, eq_comm]

theorem decodeJalr_eq_error : decodeJalr w = .error e ↔ e = .unsupportedFunct3 ∧ funct3Of w ≠ 0b000#3 := by
  rcases funct3_cases (funct3Of w) with h3 | h3 | h3 | h3 | h3 | h3 | h3 | h3 <;> simp [decodeJalr, h3, eq_comm]

theorem decodeMiscFence_eq_error : decodeMiscFence w = .error e ↔ e = .unsupportedFunct3 ∧ funct3Of w ∉ [0b000#3, 0b001#3] := by
  rcases funct3_cases (funct3Of w) with h3 | h3 | h3 | h3 | h3 | h3 | h3 | h3 <;> simp [decodeMiscFence, h3, eq_comm]

theorem decodeSystem_eq_error {x : BitVec 12} : decodeSystem x w = .error e ↔ e = .unsupportedFunct3 ∧ funct3Of w = 0b100#3 := by
  rcases funct3_cases (funct3Of w) with h3 | h3 | h3 | h3 | h3 | h3 | h3 | h3
  case inr.inl =>
    by_cases hx : immIOf w = x <;> simp [decodeSystem, h3, hx]
  all_goals simp [decodeSystem, h3, eq_comm]

end ClassDecoders

/-! ### The two decode faults -/

theorem opcodeClass_opcode (k : OpClass) : opcodeClass k.opcode = some k := by
  cases k <;> rfl

theorem opcodeClass_eq_some {op : BitVec 7} {k : OpClass} : opcodeClass op = some k ↔ op = k.opcode := by
  constructor
  · exact opcode_of_opcodeClass
  · rintro rfl
    exact opcodeClass_opcode k

/-- A word of a recognised class is never refused for its opcode (60_exceptions.md R202). -/
theorem decodeWord_ne_unsupportedOpcode (k : OpClass) (x : BitVec 12) (w : Word) :
    k.decodeWord x w ≠ .error .unsupportedOpcode := by
  cases k <;> simp [OpClass.decodeWord, decodeJalr_eq_error, decodeBranch_eq_error, decodeLoad_eq_error, decodeStore_eq_error,
    decodeImm_eq_error, decodeOp_eq_error, decodeMiscFence_eq_error, decodeSystem_eq_error]

theorem decode_eq_unsupportedOpcode {x : BitVec 12} {w : Word} :
    decode x w = .error .unsupportedOpcode ↔ opcodeClass (opcodeOf w) = none := by
  cases hclass : opcodeClass (opcodeOf w) with
  | none => exact iff_of_true (decode_of_no_class hclass x) rfl
  | some k => simp [decode_of_class hclass, decodeWord_ne_unsupportedOpcode]

theorem decode_eq_unsupportedFunct3 {x : BitVec 12} {w : Word} :
    decode x w = .error .unsupportedFunct3 ↔ ∃ k : OpClass, opcodeOf w = k.opcode ∧ k.decodeWord x w = .error .unsupportedFunct3 := by
  cases hclass : opcodeClass (opcodeOf w) with
  | none => simp [decode_of_no_class hclass, ← opcodeClass_eq_some, hclass]
  | some k => simp [decode_of_class hclass, ← opcodeClass_eq_some, hclass]

theorem opcodeClass_eq_none {op : BitVec 7} : opcodeClass op = none ↔
    op ∉ [0x37#7, 0x17#7, 0x6F#7, 0x67#7, 0x63#7, 0x03#7, 0x23#7, 0x13#7, 0x33#7, 0x0F#7, 0x73#7] := by
  unfold opcodeClass
  split <;> simp_all

theorem OpClass.low_bits_opcode (k : OpClass) : k.opcode.extractLsb' 0 2 = 0b11#2 := by
  cases k <;> rfl

theorem low_bits_opcodeOf (w : Word) : (opcodeOf w).extractLsb' 0 2 = w.extractLsb' 0 2 := by
  ext i hi
  simp [opcodeOf]

theorem decode_of_low_bits {w : Word} (h : w.extractLsb' 0 2 ≠ 0b11#2) (x : BitVec 12) :
    decode x w = .error .unsupportedOpcode := by
  cases hclass : opcodeClass (opcodeOf w) with
  | none => exact decode_of_no_class hclass x
  | some k =>
    have hlow := k.low_bits_opcode
    rw [← opcode_of_opcodeClass hclass, low_bits_opcodeOf] at hlow
    exact absurd hlow h

/-- The classes in the order of R83; the last three have no reserved selector. -/
theorem exists_opClass {P : OpClass → Prop} : (∃ k, P k) ↔
    P .op ∨ P .imm ∨ P .branch ∨ P .load ∨ P .store ∨ P .jalr ∨ P .miscFence ∨ P .system ∨ P .lui ∨ P .auipc ∨ P .jal := by
  constructor
  · rintro ⟨k, hk⟩
    cases k <;> simp only [hk, true_or, or_true]
  · rintro (h | h | h | h | h | h | h | h | h | h | h) <;> exact ⟨_, h⟩

/-- Settles O3: the two faults by the class of the opcode, and a class's own refusals in the order of R83; words that end in other bits
than 11 have no class. -/
theorem illegalEncodingsAreExactlyThese : Obligations.IllegalEncodingsAreExactlyThese := by
  intro x w
  refine ⟨decode_eq_unsupportedOpcode.trans opcodeClass_eq_none, decode_eq_unsupportedFunct3.trans ?_,
    fun h => decode_of_low_bits h x, rfl, rfl⟩
  simp only [exists_opClass, OpClass.opcode, OpClass.decodeWord, decodeOp_eq_error, decodeImm_eq_error, decodeBranch_eq_error,
    decodeLoad_eq_error, decodeStore_eq_error, decodeJalr_eq_error, decodeMiscFence_eq_error, decodeSystem_eq_error, reduceCtorEq,
    true_and, and_false, or_false]

end Sys2Proof
end

section
/-! PROOFS. The five immediates bit by bit (30_encoding.md R67 to R71). -/

namespace Sys2Proof

/-! ### The bits of the immediate fields -/

section FieldBits

variable (w : Word) {k : Nat}

theorem getLsbD_immIOf (hk : k < 12) : (immIOf w).getLsbD k = w.getLsbD (k + 20) := by
  simp [immIOf, hk, Nat.add_comm]

theorem getLsbD_immSOf (hk : k < 12) : (immSOf w).getLsbD k = w.getLsbD (if k < 5 then k + 7 else k + 20) := by
  simp only [immSOf, BitVec.getLsbD_append, BitVec.getLsbD_extractLsb']
  split_ifs with h5
  · simp [h5, Nat.add_comm]
  · rw [show 25 + (k - 5) = k + 20 by omega, decide_eq_true (by omega), Bool.true_and]

theorem getLsbD_immBOf (hk : k < 13) : (immBOf w).getLsbD k =
    (if k = 0 then false else w.getLsbD (if k < 5 then k + 7 else if k < 11 then k + 20 else if k = 11 then 7 else 31)) := by
  simp only [immBOf, BitVec.getLsbD_append, BitVec.getLsbD_extractLsb']
  interval_cases k <;> simp

theorem getLsbD_immJOf (hk : k < 21) : (immJOf w).getLsbD k =
    (if k = 0 then false else w.getLsbD (if k < 11 then k + 20 else if k = 11 then 20 else if k < 20 then k else 31)) := by
  simp only [immJOf, BitVec.getLsbD_append, BitVec.getLsbD_extractLsb']
  interval_cases k <;> simp

end FieldBits

/-! ### The bits of the 32-bit operands -/

namespace Machine

/-- Sign extension repeats the top bit: bit `k` comes from bit `min k (n - 1)`. -/
theorem getLsbD_sext32_min {n : Nat} (v : BitVec (n + 1)) {k : Nat} (hk : k < 32) :
    (sext32 v).getLsbD k = v.getLsbD (min k n) := by
  rw [getLsbD_sext32 v hk]
  split_ifs with hn
  · rw [Nat.min_eq_left (by omega)]
  · rw [Nat.min_eq_right (by omega), Nat.add_sub_cancel]

section OperandBits

variable (w : Word) {k : Nat} (hk : k < 32)

include hk

theorem getLsbD_immI : (immI (immIOf w)).getLsbD k = w.getLsbD (if k < 11 then k + 20 else 31) := by
  rw [immI, getLsbD_sext32_min _ hk, getLsbD_immIOf w (by omega)]
  grind

theorem getLsbD_immS :
    (immS (immSOf w)).getLsbD k = w.getLsbD (if k < 5 then k + 7 else if k < 11 then k + 20 else 31) := by
  rw [immS, getLsbD_sext32_min _ hk, getLsbD_immSOf w (by omega)]
  grind

theorem getLsbD_immB : (immB (immBOf w)).getLsbD k =
    (if k = 0 then false else w.getLsbD (if k < 5 then k + 7 else if k < 11 then k + 20 else if k = 11 then 7 else 31)) := by
  rw [immB, getLsbD_sext32_min _ hk, getLsbD_immBOf w (by omega)]
  grind

theorem getLsbD_immU : (immU (immUOf w)).getLsbD k = (if k < 12 then false else w.getLsbD k) := by
  simp only [immU, immUOf, BitVec.getLsbD_append, BitVec.getLsbD_extractLsb']
  grind

theorem getLsbD_immJ : (immJ (immJOf w)).getLsbD k =
    (if k = 0 then false else w.getLsbD (if k < 11 then k + 20 else if k = 11 then 20 else if k < 20 then k else 31)) := by
  rw [immJ, getLsbD_sext32_min _ hk, getLsbD_immJOf w (by omega)]
  grind

end OperandBits

/-! ### The ranges of the offsets -/

theorem toInt_sext32 {n : Nat} (v : BitVec n) (hn : n ≤ 32) : (sext32 v).toInt = v.toInt :=
  BitVec.toInt_signExtend_of_le hn

theorem two_dvd_toNat_of_evenOffset {n : Nat} {v : BitVec n} (h : evenOffset v = true) : 2 ∣ v.toNat := by
  simpa [evenOffset, BitVec.getLsbD, Nat.testBit_zero, Nat.dvd_iff_mod_eq_zero] using h

theorem two_dvd_toInt_of_evenOffset {n : Nat} {v : BitVec (n + 1)} (h : evenOffset v = true) : (2 : Int) ∣ v.toInt := by
  have hv := two_dvd_toNat_of_evenOffset h
  have hpow : (2 : Int) ∣ ↑(2 ^ (n + 1) : Nat) := by exact_mod_cast dvd_pow_self 2 n.succ_ne_zero
  rw [BitVec.toInt_eq_toNat_cond]
  split_ifs <;> omega

theorem toInt_immB_range (w : Word) : -4096 ≤ (immB (immBOf w)).toInt ∧ (immB (immBOf w)).toInt ≤ 4094 := by
  rw [immB, toInt_sext32 _ (by decide)]
  have hlo := (immBOf w).le_toInt
  have hhi := (immBOf w).toInt_lt
  have heven := two_dvd_toInt_of_evenOffset (evenOffset_immBOf w)
  omega

theorem toInt_immJ_range (w : Word) : -1048576 ≤ (immJ (immJOf w)).toInt ∧ (immJ (immJOf w)).toInt ≤ 1048574 := by
  rw [immJ, toInt_sext32 _ (by decide)]
  have hlo := (immJOf w).le_toInt
  have hhi := (immJOf w).toInt_lt
  have heven := two_dvd_toInt_of_evenOffset (evenOffset_immJOf w)
  omega

/-- Settles O5: each operand bit is a bit of the field, which is a bit of the word; an even offset misses the largest value of its
width; the examples evaluate. -/
theorem immediatesAreAssembledBitByBit : Obligations.ImmediatesAreAssembledBitByBit := by
  refine ⟨fun w k hk => ⟨getLsbD_immI w hk, getLsbD_immS w hk, getLsbD_immB w hk, getLsbD_immU w hk, getLsbD_immJ w hk⟩,
    fun w => ?_, rfl, rfl, rfl, rfl, rfl, rfl, rfl, rfl, rfl, rfl, rfl, rfl, rfl⟩
  obtain ⟨hBlo, hBhi⟩ := toInt_immB_range w
  obtain ⟨hJlo, hJhi⟩ := toInt_immJ_range w
  exact ⟨hBlo, hBhi, hJlo, hJhi⟩

end Machine

end Sys2Proof
end

section
/-! PROOFS. Where a step exists, and what its fetch and its decoder make of it (40_cycle.md R90 to R92). -/

namespace Sys2Proof.Machine

/-- A core that is not running has ended, in one of the two terminal statuses (10_state.md R31, 40_cycle.md R101). -/
theorem running_or_terminal (s : State) : s.status = .running ∨ Succeeded s ∨ Failed s := by
  cases hs : s.status with
  | running => exact .inl rfl
  | halted => exact .inr (.inl hs)
  | faulted r => exact .inr (.inr ⟨r, hs⟩)

theorem step_terminal {s : State} (h : Succeeded s ∨ Failed s) : ∃ f, step s = .fault f := by
  rcases h with hs | ⟨r, hs⟩
  · exact ⟨_, step_halted hs⟩
  · exact ⟨_, step_faulted hs⟩

/-- A running core always has a next state: each of the three ends of a step answers one. -/
theorem exists_step_of_running {s : State} (hrun : s.status = .running) : ∃ t, step s = .next t := by
  cases hf : fetch s with
  | none => exact ⟨_, step_fetch_none s hrun hf⟩
  | some w =>
    cases hd : decode s.config.exitCsr w with
    | error e => exact ⟨_, step_decode_error s w e hrun hf hd⟩
    | ok i => exact ⟨_, (step_exec hrun hf hd).trans (exec_eq_retire i s)⟩

theorem step_eq_next_running {s t : State} (h : step s = .next t) : s.status = .running :=
  (step_cases s t h).1

/-- Settles O8: inside the memory the fetch finds the word of the four bytes, which decodes. -/
theorem stepRunsTheDecodedInstruction : Obligations.StepRunsTheDecodedInstruction :=
  fun s _ hrun hb hd => step_exec hrun (State.read32_in s s.pc hb) hd

/-- Settles O9: the fetch is `read32` at the pc, and a fetch that finds no word raises OutOfBounds. -/
theorem fetchReadsTheWordAtThePc : Obligations.FetchReadsTheWordAtThePc :=
  fun s => ⟨State.read32_in s s.pc, fun hrun hb =>
    ⟨fetchFault s, step_fetch_none s hrun (State.read32_out s s.pc hb), endedWith_raise s none (.outOfBounds s.pc .word)⟩⟩

/-- Settles O10: each of the decoder's two errors raises the fault of its name. -/
theorem undecodableWordsEndFaulted : Obligations.UndecodableWordsEndFaulted :=
  fun s w hrun hf =>
    ⟨fun hd => ⟨_, step_decode_error s w _ hrun hf hd, endedWith_raise s (some w) .unsupportedOpcode⟩,
      fun hd => ⟨_, step_decode_error s w _ hrun hf hd, endedWith_raise s (some w) .unsupportedFunct3⟩⟩

/-- Settles O11: a running core always answers a next state, and in the two terminal statuses `step` stops by name. -/
theorem stepExistsExactlyWhileRunning : Obligations.StepExistsExactlyWhileRunning :=
  fun _ => ⟨⟨exists_step_of_running, fun ⟨_, ht⟩ => step_eq_next_running ht⟩, step_halted, fun _ => step_faulted⟩

end Sys2Proof.Machine
end

section
/-! PROOFS. A run of the host's loop (70_reset_and_hazards.md R226, 40_cycle.md R101). -/

namespace Sys2Proof.Machine

theorem hostRun_succ_of_step {s t : State} (h : step s = .next t) (n : Nat) : hostRun (n + 1) s = hostRun n t := by
  simp only [hostRun, h]

theorem hostRun_terminal {s : State} (h : Succeeded s ∨ Failed s) (n : Nat) : hostRun n s = s := by
  obtain ⟨f, hf⟩ := step_terminal h
  cases n with
  | zero => rfl
  | succ n => simp only [hostRun, hf]

/-- Runs compose, by induction on the first: its first step, if there is one, is also the whole run's first step. -/
theorem hostRun_add (m n : Nat) (s : State) : hostRun (m + n) s = hostRun n (hostRun m s) := by
  induction m generalizing s with
  | zero => rw [Nat.zero_add, hostRun]
  | succ m ih =>
    rcases running_or_terminal s with hrun | hend
    · obtain ⟨t, ht⟩ := exists_step_of_running hrun
      rw [Nat.add_right_comm, hostRun_succ_of_step ht, hostRun_succ_of_step ht, ih]
    · rw [hostRun_terminal hend, hostRun_terminal hend, hostRun_terminal hend]

/-- Settles O52: a running core has a step, which the run takes first; a terminal state has none, and every other state is running. -/
theorem runsEndExactlyInHaltedOrFaulted : Obligations.RunsEndExactlyInHaltedOrFaulted := by
  intro s m n
  refine ⟨rfl, fun hrun => ?_, hostRun_add m n s, fun hend => hostRun_terminal hend n, fun hs hf => ?_⟩
  · obtain ⟨t, ht⟩ := exists_step_of_running hrun
    exact ⟨t, ht, hostRun_succ_of_step ht n⟩
  · exact (running_or_terminal (hostRun n s)).resolve_right (not_or.mpr ⟨hs, hf⟩)

end Sys2Proof.Machine
end

section
/-! PROOFS. How a step ends: with a fault, which keeps the fetched word, with a halt, or still running (40_cycle.md R95, R96). -/

namespace Sys2Proof.Machine

theorem endedWith_halt (s : State) : EndedWith s s.halt .halted :=
  ⟨fun _ => rfl, rfl, fun _ => rfl, rfl, rfl⟩

theorem exists_decodeFault_eq_raise (s : State) (w : Word) (e : DecodeError) : ∃ c, decodeFault s w e = s.raise (some w) c := by
  cases e <;> exact ⟨_, rfl⟩

/-- A step raises a fault because no instruction is at the pc, or writes back the effect of the instruction there. -/
theorem step_is_raise_or_retire {s t : State} (h : step s = .next t) :
    ((∀ w i, fetch s = some w → decode s.config.exitCsr w ≠ .ok i) ∧ ∃ c, t = s.raise (fetch s) c) ∨
      ∃ w i, fetch s = some w ∧ decode s.config.exitCsr w = .ok i ∧ t = retire w (i.effect s) s := by
  obtain ⟨-, ⟨hf, rfl⟩ | ⟨w, e, hf, hd, rfl⟩ | ⟨w, i, hf, hd, hexec⟩⟩ := step_cases s t h <;> rw [hf]
  · exact .inl ⟨nofun, _, rfl⟩
  · refine .inl ⟨fun w' i hw' hd' => ?_, exists_decodeFault_eq_raise s w e⟩
    cases hw'
    cases hd.symm.trans hd'
  · cases (exec_eq_retire i s).symm.trans hexec
    exact .inr ⟨w, i, rfl, hd, by rw [encode_of_decode hd]⟩

/-- A load is written back as one register write and the next pc, or it raises a fault. -/
theorem retire_load_cases (w : Word) (rd : Reg) (a : Word) (n : Width) (sg : Bool) (s : State) :
    (∃ v, retire w (.load rd a n sg) s = (s.setX rd v).advance) ∨
      retire w (.load rd a n sg) s = s.raise (some w) (.outOfBounds a .word) := by
  by_cases hb : inBounds s.config a 4
  · exact .inl ⟨_, retire_load_in w rd a n sg s hb⟩
  · exact .inr (retire_load_out w rd a n sg s hb)

/-- A store is written back as its bytes and the next pc, or it raises a fault. -/
theorem retire_store_cases (w : Word) (a : Word) (n : Width) (v : Word) (s : State) :
    retire w (.store a n v) s = ({ s with mem := s.mem.writeBytes a.toNat (storeBytes n v) } : State).advance ∨
      retire w (.store a n v) s = s.raise (some w) (.outOfBounds a n) := by
  by_cases hb : inBounds s.config a n.bytes
  · exact .inl (retire_store_in w a n v s hb)
  · exact .inr (retire_store_out w a n v s hb)

/-- Write-back of any effect but `halt` leaves the status alone, or raises a fault and does nothing else. -/
theorem retire_ends (w : Word) (e : Effect) (s : State) :
    e = .halt ∨ (retire w e s).status = s.status ∨ ∃ c, retire w e s = s.raise (some w) c := by
  cases e with
  | halt => exact .inl rfl
  | writeRd rd v => exact .inr (.inl (s.setX_status rd v))
  | jump rd p => exact .inr (.inl (s.setX_status rd s.nextPc))
  | load rd a n sg =>
    rcases retire_load_cases w rd a n sg s with ⟨v, h⟩ | h <;> rw [h]
    · exact .inr (.inl (s.setX_status rd _))
    · exact .inr (.inr ⟨_, rfl⟩)
  | store a n v =>
    rcases retire_store_cases w a n v s with h | h <;> rw [h]
    · exact .inr (.inl rfl)
    · exact .inr (.inr ⟨_, rfl⟩)
  | branch | next => exact .inr (.inl rfl)
  | fault c => exact .inr (.inr ⟨c, rfl⟩)

/-- A step ends in the status `Running`, or it does nothing but halt or raise a fault that keeps the fetched word. -/
theorem step_ends {s t : State} (h : step s = .next t) :
    t.status = .running ∨ t = s.halt ∨ ∃ c, t = s.raise (fetch s) c := by
  rcases step_is_raise_or_retire h with ⟨-, hraise⟩ | ⟨w, i, hf, -, rfl⟩
  · exact .inr (.inr hraise)
  · rcases retire_ends w (i.effect s) s with heff | hst | hraise
    · rw [heff]
      exact .inr (.inl rfl)
    · exact .inl (hst.trans (step_eq_next_running h))
    · exact .inr (.inr (hf ▸ hraise))

/-- Settles O15: a step that ends `Faulted` did nothing but raise the fault. -/
theorem faultingStepChangesOnlyTheStatus : Obligations.FaultingStepChangesOnlyTheStatus := by
  intro s t r hstep hst
  rcases step_ends hstep with hrun | rfl | ⟨c, rfl⟩
  · exact absurd hst (State.not_faulted_of_running hrun r)
  · cases hst
  · cases hst
    exact ⟨endedWith_raise s (fetch s) c, rfl, rfl⟩

/-- Settles O16: a step that ends `Halted` did nothing but halt. -/
theorem haltingStepChangesOnlyTheStatus : Obligations.HaltingStepChangesOnlyTheStatus := by
  intro s t hstep hst
  rcases step_ends hstep with hrun | rfl | ⟨c, rfl⟩
  · cases hrun.symm.trans hst
  · exact endedWith_halt s
  · cases hst

end Sys2Proof.Machine
end

section
/-! PROOFS. Which steps halt (44_system.md R184, R187). -/

namespace Sys2Proof.Machine

open Laws.EncodedClass (classOf)

/-- The word halts a core in the state `s`: ECALL while x3 is 1 (R184), or the exit sentinel (R187). -/
def HaltWord (s : State) (w : Word) : Prop :=
  opcodeOf w = 0x73#7 ∧
    ((funct3Of w = 0b000#3 ∧ s.x 3#5 = 1#32) ∨ (funct3Of w = 0b001#3 ∧ immIOf w = s.config.exitCsr))

theorem retire_halted_iff {s : State} (hrun : s.status = .running) (w : Word) (e : Effect) :
    (retire w e s).status = .halted ↔ e = .halt := by
  constructor
  · intro hst
    rcases retire_ends w e s with heff | hkept | ⟨c, hraise⟩
    · exact heff
    · cases hst.symm.trans (hkept.trans hrun)
    · rw [hraise] at hst
      cases hst
  · rintro rfl
    rfl

theorem ecallEffect_eq_halt_iff (v : Word) : ecallEffect v = .halt ↔ v = 1#32 := by
  unfold ecallEffect
  split_ifs with hfail hone
  · exact iff_of_false nofun (by rintro rfl; exact absurd hfail (by decide))
  · exact iff_of_true rfl hone
  · exact iff_of_false nofun hone

theorem opcodeOf_encode_eq_system_iff (x : BitVec 12) (i : Instr) : opcodeOf (encode x i) = 0x73#7 ↔ classOf i = .system := by
  rw [← Option.some_inj (a := classOf i), ← opcodeClass_encode x i]
  exact (opcodeClass_eq_some (k := .system)).symm

/-- The effect of an instruction is a halt exactly where its encoding is a word that halts: only ECALL, the exit sentinel and a CSRRW of the
selector `EXIT_CSR` can be. -/
theorem effect_eq_halt_iff (i : Instr) (s : State) : i.effect s = .halt ↔ HaltWord s (encode s.config.exitCsr i) := by
  rw [HaltWord, opcodeOf_encode_eq_system_iff]
  cases i
  case ecall => simp [Instr.effect, classOf, encode, ecallEffect_eq_halt_iff, statusReg]
  case csrrwExit => simp [Instr.effect, classOf, encode]
  case csrrw => simp [Instr.effect, classOf, encode]
  case csrrs | csrrc | csrrwi | csrrsi | csrrci => simp [Instr.effect, classOf, encode]
  all_goals exact iff_of_false nofun fun h => nomatch h.1

/-- A word that halts is an instruction: of the SYSTEM words only those with funct3 100 are none (30_encoding.md R82). -/
theorem HaltWord.exists_decode {s : State} {w : Word} (h : HaltWord s w) : ∃ i, decode s.config.exitCsr w = .ok i := by
  obtain ⟨hop, hf3⟩ := h
  rw [decode_of_class (k := .system) (opcodeClass_eq_some.mpr hop), OpClass.decodeWord]
  cases hd : decodeSystem s.config.exitCsr w with
  | ok i => exact ⟨i, rfl⟩
  | error e =>
    obtain ⟨-, h4⟩ := decodeSystem_eq_error.mp hd
    simp [h4] at hf3

/-- Settles O18: a fault before the execute stage is no halt, and such a word does not halt; an instruction halts where its effect is a
halt, which its word says. -/
theorem onlyEcallAndTheSentinelHalt : Obligations.OnlyEcallAndTheSentinelHalt := by
  intro s t hstep
  change t.status = .halted ↔ ∃ w, fetch s = some w ∧ HaltWord s w
  rcases step_is_raise_or_retire hstep with ⟨hnone, c, rfl⟩ | ⟨w, i, hf, hd, rfl⟩
  · refine iff_of_false nofun fun ⟨w, hf, hw⟩ => ?_
    obtain ⟨i, hd⟩ := hw.exists_decode
    exact hnone w i hf hd
  · rw [retire_halted_iff (step_eq_next_running hstep), effect_eq_halt_iff, encode_of_decode hd]
    simp [hf]

end Sys2Proof.Machine
end

section
/-! PROOFS. The frame of a step (40_cycle.md R102): what an effect names, what write-back leaves alone, and that an instruction's effect
names what its word says. -/

namespace Sys2Proof.Machine

/-! ### What an effect names -/

/-- The register an effect writes, at most one (40_cycle.md R98). -/
def Effect.dest : Effect → Option Reg
  | .writeRd rd _ | .jump rd _ | .load rd _ _ _ => some rd
  | .branch .. | .store .. | .next | .halt | .fault .. => none

/-- The address and width of the bytes an effect writes (40_cycle.md R97, 20_memory.md R44). -/
def Effect.storeRange : Effect → Option (Word × Width)
  | .store a n _ => some (a, n)
  | .writeRd .. | .jump .. | .branch .. | .load .. | .next | .halt | .fault .. => none

/-- Where an effect can transfer control (40_cycle.md R98). -/
def Effect.target : Effect → Option Word
  | .jump _ t | .branch _ t => some t
  | .writeRd .. | .load .. | .store .. | .next | .halt | .fault .. => none

/-- No effect writes both a register and memory. -/
theorem Effect.dest_eq_none_of_storeRange {e : Effect} {p : Word × Width} (h : e.storeRange = some p) : e.dest = none := by
  cases e with
  | store => rfl
  | writeRd | jump | branch | load | next | halt | fault => cases h

/-! ### What write-back leaves alone -/

theorem State.x_setX_of_ne {s : State} {r q : Reg} (h : q ≠ r) (v : Word) : (s.setX r v).x q = s.x q := by
  rw [State.x_setX, if_neg fun hq => h hq.1]

theorem retire_x {e : Effect} {r : Reg} (hr : ∀ rd, e.dest = some rd → r ≠ rd) (w : Word) (s : State) : (retire w e s).x r = s.x r := by
  cases e with
  | writeRd rd v => exact State.x_setX_of_ne (hr rd rfl) v
  | jump rd t => exact State.x_setX_of_ne (hr rd rfl) s.nextPc
  | load rd a n sg =>
    rcases retire_load_cases w rd a n sg s with ⟨v, h⟩ | h <;> rw [h]
    · exact State.x_setX_of_ne (hr rd rfl) _
    · rfl
  | store a n v =>
    rcases retire_store_cases w a n v s with h | h <;> rw [h] <;> rfl
  | branch | next | halt | fault => rfl

theorem retire_byte {e : Effect} {s : State} {b : Nat} (hwf : s.mem.wf)
    (hb : ∀ a n, e.storeRange = some (a, n) → b < a.toNat ∨ a.toNat + n.bytes ≤ b) (w : Word) :
    (retire w e s).byte b = s.byte b := by
  cases e with
  | writeRd rd v => exact s.setX_byte rd v b
  | jump rd t => exact s.setX_byte rd s.nextPc b
  | load rd a n sg =>
    rcases retire_load_cases w rd a n sg s with ⟨v, h⟩ | h <;> rw [h]
    · exact s.setX_byte rd _ b
    · rfl
  | store a n v =>
    rcases retire_store_cases w a n v s with h | h <;> rw [h]
    · obtain ⟨-, hframe, -⟩ := storeResult_writeBytes_advance hwf a n v
      exact hframe b (hb a n rfl)
    · rfl
  | branch | next | halt | fault => rfl

/-- A byte that write-back changed is a stored one, so no register was written. -/
theorem retire_sameRegs_of_byte_ne {e : Effect} {s : State} {w : Word} {b : Nat} (hwf : s.mem.wf)
    (h : (retire w e s).byte b ≠ s.byte b) : SameRegs s (retire w e s) := by
  cases he : e.storeRange with
  | none => exact absurd (retire_byte hwf (fun a n hr => by cases he.symm.trans hr) w) h
  | some p => exact fun r => retire_x (fun rd hd => by cases (Effect.dest_eq_none_of_storeRange he).symm.trans hd) w s

theorem retire_pc (w : Word) (e : Effect) (s : State) :
    (retire w e s).pc = s.pc + 4#32 ∨ e.target = some (retire w e s).pc ∨
      ((retire w e s).pc = s.pc ∧ (retire w e s).status ≠ .running) := by
  cases e with
  | writeRd rd v => exact .inl (by simp)
  | jump rd t => exact .inr (.inl rfl)
  | branch taken t =>
    cases taken with
    | true => exact .inr (.inl rfl)
    | false => exact .inl rfl
  | load rd a n sg =>
    rcases retire_load_cases w rd a n sg s with ⟨v, h⟩ | h <;> rw [h]
    · exact .inl (by simp)
    · exact .inr (.inr ⟨rfl, nofun⟩)
  | store a n v =>
    rcases retire_store_cases w a n v s with h | h <;> rw [h]
    · exact .inl rfl
    · exact .inr (.inr ⟨rfl, nofun⟩)
  | next => exact .inl rfl
  | halt | fault => exact .inr (.inr ⟨rfl, nofun⟩)

/-! ### What the effect of an instruction names -/

theorem storeRange_effect (i : Instr) (s : State) : (i.effect s).storeRange = i.storeRange s := by
  cases i with
  | ecall | csrrw =>
    simp only [Instr.effect, ecallEffect]
    split_ifs <;> rfl
  | _ => rfl

theorem target_effect (i : Instr) (s : State) : (i.effect s).target = i.target s := by
  cases i with
  | ecall | csrrw =>
    simp only [Instr.effect, ecallEffect]
    split_ifs <;> rfl
  | _ => rfl

/-- The register written is the rd field of the instruction's word (30_encoding.md R72). -/
theorem dest_effect (i : Instr) (s : State) (x : BitVec 12) :
    (i.effect s).dest = none ∨ (i.effect s).dest = some (rdOf (encode x i)) := by
  cases i
  case ecall | csrrw =>
    simp only [Instr.effect, ecallEffect]
    split_ifs <;> exact .inl rfl
  case beq | bne | blt | bge | bltu | bgeu | sb | sh | sw | fence | fenceI | csrrwExit | csrrs | csrrc | csrrwi | csrrsi | csrrci =>
    exact .inl rfl
  case add | sub | sll | slt | sltu | xor | srl | sra | or | and | slli | srli | srai =>
    exact .inr (congrArg some (rdOf_encodeR ..).symm)
  case lui | auipc => exact .inr (congrArg some (rdOf_encodeU ..).symm)
  case jal => exact .inr (congrArg some (rdOf_encodeJ ..).symm)
  all_goals exact .inr (congrArg some (rdOf_encodeI ..).symm)

/-- Settles O17: a step that raises a fault has changed the status only; any other has written back an effect, which names the rd of the
fetched word, the bytes of the instruction's store and the instruction's target. -/
theorem stepWritesOneRegisterOrOneStore : Obligations.StepWritesOneRegisterOrOneStore := by
  intro s t hwf hstep
  refine ⟨t.x_zero, ?_⟩
  rcases step_is_raise_or_retire hstep with ⟨-, c, rfl⟩ | ⟨w, i, hf, hd, rfl⟩
  · exact ⟨fun _ _ => rfl, fun _ _ => rfl, fun _ _ => rfl, .inr (.inr ⟨rfl, nofun⟩)⟩
  · refine ⟨fun r hr => retire_x (fun rd hdest => ?_) w s, fun b hb => retire_byte hwf (fun a n hrange => ?_) w,
      fun ⟨b, hb⟩ => retire_sameRegs_of_byte_ne hwf hb, ?_⟩
    · rcases dest_effect i s s.config.exitCsr with hnone | hrd
      · cases hnone.symm.trans hdest
      · rw [encode_of_decode hd] at hrd
        cases hrd.symm.trans hdest
        exact hr w hf
    · exact hb w i a n hf hd (storeRange_effect i s ▸ hrange)
    · rcases retire_pc w (i.effect s) s with hnext | htarget | hended
      · exact .inl hnext
      · exact .inr (.inl ⟨w, i, hf, hd, target_effect i s ▸ htarget⟩)
      · exact .inr (.inr hended)

end Sys2Proof.Machine
end

section
/-! PROOFS. The shared ALU as arithmetic on exact integers (41_alu.md R110 to R115). -/

namespace Sys2Proof.Machine

/-! ### Shift amounts (41_alu.md R112, R134 to R136) -/

theorem shiftAmount_eq_mod (y : Word) : shiftAmount y = y.toNat % 32 := by
  rw [shiftAmount, BitVec.extractLsb'_toNat, Nat.shiftRight_zero]

/-- The amount of an IMM shift is the shamt field, whatever the selector above it. -/
theorem shiftAmount_immShift (f7 : BitVec 7) (shamt : BitVec 5) : shiftAmount (immShift f7 shamt) = shamt.toNat := by
  rw [shiftAmount]
  congr 1
  ext k hk
  rw [BitVec.getElem_extractLsb', immShift, immI, getLsbD_sext32 _ (by omega), if_pos (by omega), BitVec.getLsbD_append,
    if_pos (by omega), Nat.zero_add, BitVec.getLsbD_eq_getElem hk]

/-! ### One law per operation -/

section Operations

variable (x y : Word) (alt : Bool)

theorem aluApply_add : aluApply .addSub x y false = BitVec.ofInt 32 (x.toInt + y.toInt) := by
  rw [BitVec.ofInt_add, BitVec.ofInt_toInt, BitVec.ofInt_toInt]
  rfl

theorem aluApply_sub : aluApply .addSub x y true = BitVec.ofInt 32 (x.toInt - y.toInt) := by
  rw [aluApply, if_pos rfl, ← BitVec.toInt_inj, BitVec.toInt_sub, BitVec.toInt_ofInt]

theorem aluApply_sll : aluApply .sll x y alt = BitVec.ofNat 32 (x.toNat * 2 ^ shiftAmount y) := by
  rw [aluApply, ← BitVec.toNat_inj, BitVec.toNat_shiftLeft, Nat.shiftLeft_eq, BitVec.toNat_ofNat]

theorem toNat_aluApply_srl : (aluApply .srlSra x y false).toNat = x.toNat / 2 ^ shiftAmount y := by
  rw [← Nat.shiftRight_eq_div_pow]
  exact BitVec.toNat_ushiftRight x _

theorem toInt_aluApply_sra : (aluApply .srlSra x y true).toInt = x.toInt / 2 ^ shiftAmount y := by
  refine BitVec.toInt_sshiftRight.trans ?_
  rw [Int.shiftRight_eq_div_pow, Nat.cast_pow, Nat.cast_ofNat]

theorem aluApply_srl : aluApply .srlSra x y false = BitVec.ofNat 32 (x.toNat / 2 ^ shiftAmount y) := by
  rw [← toNat_aluApply_srl, BitVec.ofNat_toNat, BitVec.setWidth_eq]

theorem aluApply_sra : aluApply .srlSra x y true = BitVec.ofInt 32 (x.toInt / 2 ^ shiftAmount y) := by
  rw [← toInt_aluApply_sra, BitVec.ofInt_toInt]

theorem msb_aluApply_sra : (aluApply .srlSra x y true).msb = x.msb := BitVec.msb_sshiftRight

theorem boolWord_decide (p : Prop) [Decidable p] : boolWord (decide p) = if p then 1#32 else 0#32 := by
  simp only [boolWord, decide_eq_true_eq]

theorem aluApply_slt : aluApply .slt x y alt = if x.toInt < y.toInt then 1#32 else 0#32 := boolWord_decide _

theorem aluApply_sltu : aluApply .sltu x y alt = if x.toNat < y.toNat then 1#32 else 0#32 := boolWord_decide _

theorem aluApply_xor : aluApply .xor x y alt = x ^^^ y := rfl

theorem aluApply_or : aluApply .or x y alt = x ||| y := rfl

theorem aluApply_and : aluApply .and x y alt = x &&& y := rfl

end Operations

/-- Settles O29: the law of each operation, the amount of a shift taken modulo 32. -/
theorem aluComputesTheNamedFunctions : Obligations.AluComputesTheNamedFunctions := by
  intro x y
  simp only [← shiftAmount_eq_mod]
  refine ⟨aluApply_add x y, aluApply_sub x y, fun alt => ?sll, toNat_aluApply_srl x y, toInt_aluApply_sra x y,
    aluApply_slt x y, aluApply_sltu x y, fun alt k _ => ⟨?xor, ?or, ?and⟩⟩
  case sll => rw [aluApply_sll, BitVec.toNat_ofNat]
  case xor => rw [aluApply_xor, BitVec.getLsbD_xor]
  case or => rw [aluApply_or, BitVec.getLsbD_or]
  case and => rw [aluApply_and, BitVec.getLsbD_and]

/-- Settles O30: wrapping subtraction is undone by wrapping addition, and an arithmetic shift of any amount keeps the sign bit. -/
theorem aluRoundTripAndSign : Obligations.AluRoundTripAndSign := by
  refine ⟨BitVec.sub_add_cancel, fun x hx => ?_⟩
  have hsign := msb_aluApply_sra x 1#32
  rw [BitVec.msb_eq_getLsbD_last, BitVec.msb_eq_getLsbD_last] at hsign
  exact hsign.trans hx

end Sys2Proof.Machine
end

section
/-! PROOFS. The instructions that write one value to `rd` and advance (41_alu.md R117 to R138): one law of write-back, and the value of
each by the law of its ALU operation. -/

namespace Sys2Proof.Machine

/-- An instruction whose effect is a register write does that, whatever else its word holds. -/
theorem exec_writeRd {i : Instr} {s : State} {rd : Reg} {u v : Word} (hi : i.effect s = .writeRd rd u) (huv : u = v) :
    Answers (exec i s) fun t => RegisterResult s t rd v (s.pc + 4#32) := by
  subst huv
  refine ⟨_, exec_eq_retire i s, ?_⟩
  rw [hi, retire_writeRd]
  exact registerResult_setX_advance s rd u

/-! ### The operands of IMM and of the upper immediates -/

theorem immI_eq_ofInt (imm : BitVec 12) : immI imm = BitVec.ofInt 32 imm.toInt := rfl

theorem toInt_immI (imm : BitVec 12) : (immI imm).toInt = imm.toInt := toInt_sext32 imm (by decide)

theorem immU_eq_ofNat (imm : BitVec 20) : immU imm = BitVec.ofNat 32 (imm.toNat * 2 ^ 12) := by
  rw [immU, ← BitVec.toNat_inj, BitVec.toNat_append, BitVec.toNat_ofNat, BitVec.toNat_ofNat, Nat.zero_mod, Nat.or_zero,
    Nat.shiftLeft_eq, Nat.mod_eq_of_lt (by omega)]

/-! ### OP and IMM words (41_alu.md R117) -/

section Words

variable {w : Word} {i : Instr}

theorem effect_of_decodeOp (h : decodeOp w = .ok i) (s : State) : i.effect s = .writeRd (rdOf w)
    (aluApply (aluOpOf (funct3Of w)) (s.x (rs1Of w)) (s.x (rs2Of w)) (decide (funct7Of w = 0b0100000#7))) := by
  unfold decodeOp at h
  split at h <;> cases h
  all_goals
    rename_i h7 h3
    rw [h7, h3]
    rfl

/-- A shift's right operand is the I-immediate of its word, selector and all. -/
theorem effect_of_decodeShiftImm (h : decodeShiftImm w = .ok i) (s : State) : i.effect s = .writeRd (rdOf w)
    (aluApply (aluOpOf (funct3Of w)) (s.x (rs1Of w)) (immI (immIOf w))
      (decide (funct3Of w = 0b101#3 ∧ funct7Of w = 0b0100000#7))) := by
  unfold decodeShiftImm at h
  split at h <;> cases h
  all_goals
    rename_i h7 h3
    rw [immIOf_eq_append, h7, h3]
    rfl

/-- Away from funct3 101 the selector bits belong to the immediate, so `alt` is off (90_conflicts.md C7). -/
theorem effect_of_decodeImm (h : decodeImm w = .ok i) (s : State) : i.effect s = .writeRd (rdOf w)
    (aluApply (aluOpOf (funct3Of w)) (s.x (rs1Of w)) (immI (immIOf w))
      (decide (funct3Of w = 0b101#3 ∧ funct7Of w = 0b0100000#7))) := by
  unfold decodeImm at h
  split at h
  case h_7 => exact effect_of_decodeShiftImm h s
  all_goals
    rename_i h3
    cases h
    simp only [h3]
    rfl

/-- The funct7 values that give an OP word a meaning are those R83 does not reserve. -/
theorem op_legal_iff_not_reserved :
    (funct7Of w = 0b0000000#7 ∨ (funct7Of w = 0b0100000#7 ∧ funct3Of w ∈ [0b000#3, 0b101#3])) ↔
      ¬ (funct7Of w ∉ [0b0000000#7, 0b0100000#7] ∨ (funct7Of w = 0b0100000#7 ∧ funct3Of w ∉ [0b000#3, 0b101#3])) := by
  by_cases h0 : funct7Of w = 0b0000000#7
  · simp [h0]
  · by_cases h1 : funct7Of w = 0b0100000#7 <;> simp [h0, h1, or_iff_not_imp_left]

end Words

/-- Settles O31: the class decoder refuses exactly the reserved selectors; what it answers has the ALU's value on the word's funct3 as its
effect. -/
theorem oneAluServesOpAndImm : Obligations.OneAluServesOpAndImm := by
  intro x w
  refine ⟨fun hop => ?op, fun hop => ?imm⟩
  case op =>
    have hd : decode x w = decodeOp w := decode_of_class (k := .op) (opcodeClass_eq_some.mpr hop) x
    rw [hd]
    cases hdec : decodeOp w with
    | error e =>
      obtain ⟨rfl, hreserved⟩ := decodeOp_eq_error.mp hdec
      rw [if_neg fun hlegal => op_legal_iff_not_reserved.mp hlegal hreserved]
    | ok i =>
      rw [if_pos (op_legal_iff_not_reserved.mpr fun hreserved => by
        cases hdec.symm.trans (decodeOp_eq_error.mpr ⟨rfl, hreserved⟩))]
      exact ⟨i, rfl, fun s => exec_writeRd (effect_of_decodeOp hdec s) rfl⟩
  case imm =>
    have hd : decode x w = decodeImm w := decode_of_class (k := .imm) (opcodeClass_eq_some.mpr hop) x
    rw [hd]
    cases hdec : decodeImm w with
    | error e =>
      obtain ⟨rfl, hreserved⟩ := decodeImm_eq_error.mp hdec
      rw [if_pos hreserved]
    | ok i =>
      rw [if_neg fun hreserved => by cases hdec.symm.trans (decodeImm_eq_error.mpr ⟨rfl, hreserved⟩)]
      exact ⟨i, rfl, fun s => exec_writeRd (effect_of_decodeImm hdec s) rfl⟩

/-! ### The instructions by name -/

/-- Settles O34: each writes back its shift, by the register amount modulo 32 or by the shamt field. -/
theorem shiftResults : Obligations.ShiftResults := by
  intro s rd rs1 rs2 shamt
  simp only [← shiftAmount_eq_mod]
  refine ⟨exec_writeRd rfl (aluApply_sll ..), exec_writeRd rfl (aluApply_srl ..), exec_writeRd rfl (aluApply_sra ..),
    exec_writeRd rfl ?slli, exec_writeRd rfl ?srli, exec_writeRd rfl ?srai⟩
  case slli => rw [aluApply_sll, shiftAmount_immShift]
  case srli => rw [aluApply_srl, shiftAmount_immShift]
  case srai => rw [aluApply_sra, shiftAmount_immShift]

/-- Settles O35: each writes back its comparison; sign extension keeps the signed value of the immediate. -/
theorem setLessThanResults : Obligations.SetLessThanResults := by
  intro s rd rs1 rs2 imm
  refine ⟨exec_writeRd rfl (aluApply_slt ..), exec_writeRd rfl (aluApply_sltu ..), exec_writeRd rfl ?slti, exec_writeRd rfl ?sltiu⟩
  case slti => rw [aluApply_slt, toInt_immI]
  case sltiu => rw [aluApply_sltu, immI_eq_ofInt]

/-- Settles O32: each writes back its sum or difference; sign extension keeps the signed value of the immediate. -/
theorem addAndSubtractResults : Obligations.AddAndSubtractResults := by
  intro s rd rs1 rs2 imm
  refine ⟨exec_writeRd rfl (aluApply_add ..), exec_writeRd rfl (aluApply_sub ..), exec_writeRd rfl ?addi⟩
  case addi => rw [aluApply_add, toInt_immI]

/-- Settles O33: each writes back its bitwise function, of the register or of the sign-extended immediate. -/
theorem logicResults : Obligations.LogicResults := by
  intro s rd rs1 rs2 imm
  simp only [← immI_eq_ofInt]
  exact ⟨exec_writeRd rfl (aluApply_xor ..), exec_writeRd rfl (aluApply_or ..), exec_writeRd rfl (aluApply_and ..),
    exec_writeRd rfl (aluApply_xor ..), exec_writeRd rfl (aluApply_or ..), exec_writeRd rfl (aluApply_and ..)⟩

/-- Settles O36: the field times 2^12, alone or added to the pc, where narrowing to 32 bits commutes with the sum. -/
theorem upperImmediateResults : Obligations.UpperImmediateResults := by
  intro s rd imm
  refine ⟨exec_writeRd rfl (immU_eq_ofNat imm), exec_writeRd rfl ?auipc⟩
  case auipc => rw [immU_eq_ofNat, BitVec.ofNat_add, BitVec.ofNat_toNat, BitVec.setWidth_eq]

end Sys2Proof.Machine
end

section
/-! PROOFS. The spec's own words (30_encoding.md R74). -/

namespace Sys2Proof

/-- Settles O7: fifteen words without variables, each of which the decoder evaluates to the instruction named. -/
theorem specWordsDecode : Obligations.SpecWordsDecode :=
  ⟨rfl, rfl, rfl, rfl, rfl, rfl, rfl, rfl, rfl, rfl, rfl, rfl, rfl, rfl, rfl⟩

end Sys2Proof
end

section
/-! PROOFS. Jumps and branches (42_control.md R140 to R149): one law of write-back for each of the two effects, the laws of the branch unit,
and the target on exact integers. -/

namespace Sys2Proof.Machine

/-! ### What an instruction with a given effect answers -/

section Transfers

variable {i : Instr} {s : State} {u v : Word}

/-- A jump links the address after itself and writes its target to the pc (42_control.md R141, 40_cycle.md R99). -/
theorem exec_jump {rd : Reg} (hi : i.effect s = .jump rd u) (huv : u = v) :
    Answers (exec i s) fun t => RegisterResult s t rd (s.pc + 4#32) v := by
  subst huv
  refine ⟨_, exec_eq_retire i s, ?_⟩
  rw [hi, retire_jump]
  exact ⟨fun r => State.x_setX s rd r s.nextPc, rfl, s.setX_byte rd s.nextPc, s.setX_status rd s.nextPc, s.setX_config rd s.nextPc⟩

/-- A branch only writes the pc: its target where its condition `c` holds (42_control.md R141). -/
theorem exec_branch {taken : Bool} {c : Prop} [Decidable c] (hi : i.effect s = .branch taken u) (hc : taken = true ↔ c) (huv : u = v) :
    Answers (exec i s) fun t => PcResult s t (if c then v else s.pc + 4#32) := by
  subst huv
  refine ⟨_, exec_eq_retire i s, ?_⟩
  rw [hi, retire_branch]
  exact ⟨fun _ => rfl, if_congr hc rfl rfl, fun _ => rfl, rfl, rfl⟩

end Transfers

/-! ### The branch unit (42_control.md R140) -/

section Conditions

variable (x y : Word)

theorem evaluate_eq_iff : evaluate .eq x y = true ↔ x = y := decide_eq_true_iff

theorem evaluate_ne_iff : evaluate .ne x y = true ↔ x ≠ y := decide_eq_true_iff

theorem evaluate_lt_iff : evaluate .lt x y = true ↔ x.toInt < y.toInt := decide_eq_true_iff

theorem evaluate_ge_iff : evaluate .ge x y = true ↔ y.toInt ≤ x.toInt := decide_eq_true_iff

theorem evaluate_ltu_iff : evaluate .ltu x y = true ↔ x.toNat < y.toNat := decide_eq_true_iff

theorem evaluate_geu_iff : evaluate .geu x y = true ↔ y.toNat ≤ x.toNat := decide_eq_true_iff

/-- At the funct3 that selects a condition, the table of R140 is that condition: its other five rows name another funct3. -/
theorem evaluate_iff_of_conditionOf {f3 : BitVec 3} {c : Condition} (h : conditionOf f3 = some c) :
    evaluate c x y = true ↔
      (f3 = 0b000#3 ∧ x = y) ∨ (f3 = 0b001#3 ∧ x ≠ y) ∨
      (f3 = 0b100#3 ∧ x.toInt < y.toInt) ∨ (f3 = 0b101#3 ∧ y.toInt ≤ x.toInt) ∨
      (f3 = 0b110#3 ∧ x.toNat < y.toNat) ∨ (f3 = 0b111#3 ∧ y.toNat ≤ x.toNat) := by
  unfold conditionOf at h
  split at h <;> cases h
  case h_1 => simp [evaluate_eq_iff]
  case h_2 => simp [evaluate_ne_iff]
  case h_3 => simp [evaluate_lt_iff]
  case h_4 => simp [evaluate_ge_iff]
  case h_5 => simp [evaluate_ltu_iff]
  case h_6 => simp [evaluate_geu_iff]

end Conditions

/-- A BRANCH word that decodes has the condition of its funct3, on its two registers, as its effect (30_encoding.md R77). -/
theorem effect_of_decodeBranch {w : Word} {i : Instr} (h : decodeBranch w = .ok i) :
    ∃ c, conditionOf (funct3Of w) = some c ∧ ∀ s : State,
      i.effect s = .branch (evaluate c (s.x (rs1Of w)) (s.x (rs2Of w))) (s.pc + immB (immBOf w)) := by
  unfold decodeBranch at h
  split at h <;> cases h
  all_goals
    rename_i h3
    rw [h3]
    exact ⟨_, rfl, fun _ => rfl⟩

/-- Settles O39: the class decoder refuses exactly the two funct3 values that select no condition; what it answers is the branch on the
condition that its funct3 selects. -/
theorem branchUnitEvaluatesFunct3 : Obligations.BranchUnitEvaluatesFunct3 := by
  intro x w hop
  have hd : decode x w = decodeBranch w := decode_of_class (k := .branch) (opcodeClass_eq_some.mpr hop) x
  rw [hd]
  cases hdec : decodeBranch w with
  | error e =>
    obtain ⟨rfl, hreserved⟩ := decodeBranch_eq_error.mp hdec
    rw [if_pos hreserved]
  | ok i =>
    rw [if_neg fun hreserved => by cases hdec.symm.trans (decodeBranch_eq_error.mpr ⟨rfl, hreserved⟩)]
    obtain ⟨c, hc, heff⟩ := effect_of_decodeBranch hdec
    exact ⟨i, rfl, fun s => ⟨_, evaluate_iff_of_conditionOf _ _ hc, exec_branch (heff s) Iff.rfl rfl⟩⟩

/-! ### The instructions by name -/

/-- A sign-extended offset added modulo 2^32 is the exact sum, narrowed (00_scope.md R8). -/
theorem add_sext32_eq_ofInt {n : Nat} (x : Word) (v : BitVec n) : x + sext32 v = BitVec.ofInt 32 (x.toInt + v.toInt) := by
  rw [BitVec.ofInt_add, BitVec.ofInt_toInt]
  rfl

/-- Settles O37: each links and jumps, from the pc or from the old rs1. -/
theorem jumpResults : Obligations.JumpResults := by
  intro s rd rs1 offset imm
  exact ⟨exec_jump rfl (add_sext32_eq_ofInt s.pc offset), exec_jump rfl (add_sext32_eq_ofInt (s.x rs1) imm)⟩

/-- Settles O38: each branches on its own condition of the branch unit, all six to one target. -/
theorem branchResults : Obligations.BranchResults := by
  intro s rs1 rs2 offset
  have htarget : s.pc + immB offset = BitVec.ofInt 32 (s.pc.toInt + offset.toInt) := add_sext32_eq_ofInt s.pc offset
  exact ⟨exec_branch rfl (evaluate_eq_iff ..) htarget, exec_branch rfl (evaluate_ne_iff ..) htarget,
    exec_branch rfl (evaluate_lt_iff ..) htarget, exec_branch rfl (evaluate_ge_iff ..) htarget,
    exec_branch rfl (evaluate_ltu_iff ..) htarget, exec_branch rfl (evaluate_geu_iff ..) htarget⟩

end Sys2Proof.Machine
end

section
/-! PROOFS. MISC-FENCE and SYSTEM (44_system.md R181 to R192): one law of write-back for each of the three effects they have, the decoder on
SYSTEM words, and what ECALL does by the value of x3. -/

namespace Sys2Proof.Machine

/-! ### What an instruction with a given effect answers -/

section Effects

variable {i : Instr} {s : State}

/-- An instruction without effect only advances the pc (40_cycle.md R98). -/
theorem exec_next (hi : i.effect s = .next) : Answers (exec i s) fun t => PcResult s t (s.pc + 4#32) := by
  refine ⟨_, exec_eq_retire i s, ?_⟩
  rw [hi, retire_next]
  exact ⟨fun _ => rfl, rfl, fun _ => rfl, rfl, rfl⟩

/-- A halting instruction changes the status only (40_cycle.md R96). -/
theorem exec_halt (hi : i.effect s = .halt) : Answers (exec i s) fun t => EndedWith s t .halted := by
  refine ⟨_, exec_eq_retire i s, ?_⟩
  rw [hi, retire_halt]
  exact endedWith_halt s

/-- A faulting instruction changes the status only, and its record keeps its own encoding (40_cycle.md R95; log entry 5). -/
theorem exec_fault {c : FaultCause} (hi : i.effect s = .fault c) : Answers (exec i s) fun t =>
    EndedWith s t (.faulted { cause := c, faultPc := s.pc, word := some (encode s.config.exitCsr i) }) := by
  refine ⟨_, exec_eq_retire i s, ?_⟩
  rw [hi, retire_fault]
  exact endedWith_raise s _ c

end Effects

/-! ### SYSTEM words (30_encoding.md R82) -/

section Words

variable {x : BitVec 12} {w : Word}

theorem decode_eq_decodeSystem (hop : opcodeOf w = 0x73#7) : decode x w = decodeSystem x w :=
  decode_of_class (k := .system) (opcodeClass_eq_some.mpr hop) x

theorem decode_ecall (hop : opcodeOf w = 0x73#7) (h3 : funct3Of w = 0b000#3) :
    decode x w = .ok (.ecall (rdOf w) (rs1Of w) (immIOf w)) := by
  rw [decode_eq_decodeSystem hop]
  simp only [decodeSystem, h3]

theorem decode_csrrw (hop : opcodeOf w = 0x73#7) (h3 : funct3Of w = 0b001#3) :
    decode x w = .ok (if immIOf w = x then .csrrwExit (rdOf w) (rs1Of w) else .csrrw (rdOf w) (rs1Of w) (immIOf w)) := by
  rw [decode_eq_decodeSystem hop]
  simp only [decodeSystem, h3]
  split_ifs <;> rfl

/-- EBREAK, MRET, SRET, URET and WFI have the selectors of ECALL (44_system.md R184; the spec's decision D12). -/
theorem selectors_of_ecall_words : ∀ w ∈ [0x00000073#32, 0x00100073#32, 0x30200073#32, 0x10200073#32, 0x00200073#32, 0x10500073#32],
    opcodeOf w = 0x73#7 ∧ funct3Of w = 0b000#3 := by
  intro w hw
  simp only [List.mem_cons, List.not_mem_nil, or_false] at hw
  rcases hw with rfl | rfl | rfl | rfl | rfl | rfl <;> exact ⟨rfl, rfl⟩

end Words

/-! ### What ECALL does with the value of the status register (44_system.md R184) -/

theorem ecallEffect_eq_testFailure_iff (u v : Word) : ecallEffect u = .fault (.testFailure v) ↔ u = v ∧ 1 < v.toNat := by
  unfold ecallEffect
  split_ifs with hfail
  · constructor
    · intro h
      cases h
      exact ⟨rfl, hfail⟩
    · rintro ⟨rfl, -⟩
      rfl
  all_goals exact iff_of_false nofun fun ⟨huv, hv⟩ => hfail (huv ▸ hv)

theorem ecallEffect_zero : ecallEffect 0#32 = .next := rfl

/-! ### The instructions by name -/

/-- Settles O45: the SYSTEM decoder answers ECALL at funct3 000, whose effect is the fault, the halt or nothing by the value of x3. -/
theorem ecallInspectsTheStatusRegister : Obligations.EcallInspectsTheStatusRegister := by
  refine ⟨fun x w => decode_ecall, fun x w hw => ?_, fun s rd rs1 imm => ⟨fun hfail => ?_, fun hone => ?_, fun hzero => ?_⟩⟩
  · obtain ⟨hop, h3⟩ := selectors_of_ecall_words w hw
    exact ⟨_, _, _, decode_ecall hop h3⟩
  · exact exec_fault ((ecallEffect_eq_testFailure_iff ..).mpr ⟨rfl, hfail⟩)
  · exact exec_halt ((ecallEffect_eq_halt_iff _).mpr hone)
  · exact exec_next ((congrArg ecallEffect hzero).trans ecallEffect_zero)

/-- Settles O46: the decoder and the meaning of CSRRW compare the selector with `EXIT_CSR`; the other five CSR instructions have no effect. -/
theorem exitSentinelHalts : Obligations.ExitSentinelHalts := by
  refine ⟨fun x w hop h3 => ?_, fun s rd rs1 => exec_halt rfl, fun s rd rs1 => exec_halt (if_pos rfl), fun s rd rs1 i hi => ?_⟩
  · rw [decode_csrrw hop h3]
    by_cases hx : immIOf w = x <;> simp [hx]
  · simp only [List.mem_cons, List.not_mem_nil, or_false] at hi
    rcases hi with rfl | rfl | rfl | rfl | rfl <;> exact exec_next rfl

/-- Settles O44: neither fence has an effect, whatever its ignored fields hold. -/
theorem fencesOnlyAdvanceThePc : Obligations.FencesOnlyAdvanceThePc :=
  fun _ _ _ _ => ⟨exec_next rfl, exec_next rfl⟩

/-- Settles O47: a CSR instruction has no effect, CSRRW because its selector is not `EXIT_CSR`. -/
theorem csrInstructionsOnlyAdvanceThePc : Obligations.CsrInstructionsOnlyAdvanceThePc :=
  fun _ _ _ _ _ => ⟨fun hcsr => exec_next (if_neg hcsr), exec_next rfl, exec_next rfl, exec_next rfl, exec_next rfl, exec_next rfl⟩

end Sys2Proof.Machine
end

section
/-! PROOFS. Which steps raise TestFailure (44_system.md R184, 60_exceptions.md R204). -/

namespace Sys2Proof.Machine

open Laws.EncodedClass (classOf)

/-- The run has ended with TestFailure and this value. -/
def EndedTestFailure (t : State) (v : Word) : Prop := ∃ r, t.status = .faulted r ∧ r.cause = .testFailure v

/-- The word fails the test with the value `v` in the state `s`: ECALL while x3 is `v`, more than 1 (R184). -/
def TestFailureWord (s : State) (v w : Word) : Prop :=
  opcodeOf w = 0x73#7 ∧ funct3Of w = 0b000#3 ∧ s.x 3#5 = v ∧ 1 < v.toNat

theorem endedTestFailure_raise {s : State} {w : Option Word} {c : FaultCause} {v : Word} :
    EndedTestFailure (s.raise w c) v ↔ c = .testFailure v := by
  simp [EndedTestFailure]

theorem not_endedTestFailure_decodeFault (s : State) (w : Word) (e : DecodeError) (v : Word) :
    ¬ EndedTestFailure (decodeFault s w e) v := by
  cases e <;> exact fun h => nomatch endedTestFailure_raise.mp h

/-- A fault that write-back raises is OutOfBounds or the fault that the effect itself is. -/
theorem cause_of_retire_faulted {s : State} {e : Effect} {w : Word} {r : FaultRecord} (hrun : s.status = .running)
    (hst : (retire w e s).status = .faulted r) : (∃ a n, r.cause = .outOfBounds a n) ∨ e = .fault r.cause := by
  by_cases hin : ∀ b m, e.checkedRange = some (b, m) → inBounds s.config b m.bytes
  · rcases retire_status_of_in_bounds hin w with hkept | hhalt | ⟨c, rfl, -⟩
    · exact absurd hst (State.not_faulted_of_running (hkept.trans hrun) r)
    · cases hhalt.symm.trans hst
    · cases hst
      exact .inr rfl
  · push Not at hin
    obtain ⟨b, m, hrange, hout⟩ := hin
    rw [retire_out_of_checkedRange hrange hout] at hst
    cases hst
    exact .inl ⟨b, m, rfl⟩

theorem retire_endedTestFailure_iff {s : State} (hrun : s.status = .running) (w : Word) (e : Effect) (v : Word) :
    EndedTestFailure (retire w e s) v ↔ e = .fault (.testFailure v) := by
  constructor
  · rintro ⟨r, hst, hv⟩
    rcases cause_of_retire_faulted hrun hst with ⟨a, n, hout⟩ | heff
    · cases hout.symm.trans hv
    · rw [heff, hv]
  · rintro rfl
    exact endedTestFailure_raise.mpr rfl

/-- The effect of an instruction is a failed test exactly where its encoding is a word that fails the test: only ECALL can. -/
theorem effect_eq_testFailure_iff (i : Instr) (s : State) (v : Word) :
    i.effect s = .fault (.testFailure v) ↔ TestFailureWord s v (encode s.config.exitCsr i) := by
  rw [TestFailureWord, opcodeOf_encode_eq_system_iff]
  cases i
  case ecall => simp [Instr.effect, classOf, encode, ecallEffect_eq_testFailure_iff, statusReg]
  case csrrw rd rs1 csr => by_cases hcsr : csr = s.config.exitCsr <;> simp [Instr.effect, encode, hcsr]
  case csrrwExit | csrrs | csrrc | csrrwi | csrrsi | csrrci => simp [Instr.effect, encode]
  all_goals exact iff_of_false nofun fun h => nomatch h.1

/-- Settles O19: the faults before the execute stage are of other kinds, and a word that fails the test decodes; an instruction fails the
test where its effect does, which its word says. -/
theorem onlyEcallRaisesTestFailure : Obligations.OnlyEcallRaisesTestFailure := by
  intro s t v hstep
  change EndedTestFailure t v ↔ ∃ w, fetch s = some w ∧ TestFailureWord s v w
  obtain ⟨hrun, ⟨hf, rfl⟩ | ⟨w, e, hf, hd, rfl⟩ | ⟨w, i, hf, hd, hexec⟩⟩ := step_cases s t hstep
  · simp [fetchFault, endedTestFailure_raise, hf]
  · refine iff_of_false (not_endedTestFailure_decodeFault s w e v) fun ⟨w', hf', hop, h3, _⟩ => ?_
    cases hf.symm.trans hf'
    cases hd.symm.trans (decode_ecall hop h3)
  · cases (exec_eq_retire i s).symm.trans hexec
    rw [retire_endedTestFailure_iff hrun, effect_eq_testFailure_iff, encode_of_decode hd]
    simp [hf]

end Sys2Proof.Machine
end

section
/-! PROOFS. Load segment and boot as functions of the parameters and the image: where they succeed and what the memory then holds
(70_reset_and_hazards.md R223, R224). -/

namespace Sys2Proof.Machine

/-! ### A write of consecutive bytes, read inside and outside its range -/

section WriteBytes

variable {m : Memory} {bs : List Byte}

theorem Memory.read_writeBytes_inside (hwf : m.wf) (a : Nat) {k : Nat} (hk : k < bs.length) :
    (m.writeBytes a bs).read (a + k) = bs[k] := by
  rw [Memory.read_writeBytes bs m a hwf, if_pos (Nat.le_add_right a k), Nat.add_sub_cancel_left, List.getElem?_eq_getElem hk]
  rfl

theorem Memory.read_writeBytes_outside (hwf : m.wf) {a b : Nat} (hb : b < a ∨ a + bs.length ≤ b) :
    (m.writeBytes a bs).read b = m.read b := by
  rw [Memory.read_writeBytes bs m a hwf]
  rcases hb with hb | hb
  · rw [if_neg (by omega)]
  · rw [if_pos (by omega), List.getElem?_eq_none (by omega)]
    rfl

end WriteBytes

/-- Settles O49: the bounds check decides, and a write in bounds changes the bytes of its range alone. -/
theorem loadSegmentIsAllOrNothing : Obligations.LoadSegmentIsAllOrNothing := fun s a bs hwf =>
  ⟨fun hb => ⟨_, loadSegment_in a bs s hb, fun _ hk => Memory.read_writeBytes_inside hwf a.toNat hk,
      fun _ hout => Memory.read_writeBytes_outside hwf hout, Memory.writeBytes_wf bs s.mem a.toNat hwf, fun _ => rfl, rfl, rfl, rfl⟩,
    loadSegment_out a bs s⟩

/-! ### The segments of an image, written in order -/

/-- The address is not in the segment. -/
def OutsideSegment (b : Nat) (seg : Word × List Byte) : Prop := b < seg.1.toNat ∨ seg.1.toNat + seg.2.length ≤ b

/-- No byte is in both segments: the second clause of `ProperImage`. -/
def DisjointSegments (p q : Word × List Byte) : Prop :=
  p.1.toNat + p.2.length ≤ q.1.toNat ∨ q.1.toNat + q.2.length ≤ p.1.toNat

theorem DisjointSegments.symm {p q : Word × List Byte} (h : DisjointSegments p q) : DisjointSegments q p := Or.symm h

theorem DisjointSegments.outsideSegment {p q : Word × List Byte} (h : DisjointSegments p q) {k : Nat} (hk : k < p.2.length) :
    OutsideSegment (p.1.toNat + k) q := by
  unfold DisjointSegments at h
  unfold OutsideSegment
  omega

/-- The memory after the segments, in order, each written whole; `loadSegments_eq_ok_iff` ties it to the model. -/
def Memory.writeSegments : Memory → List (Word × List Byte) → Memory
  | m, [] => m
  | m, seg :: segs => Memory.writeSegments (m.writeBytes seg.1.toNat seg.2) segs

section WriteSegments

variable {m : Memory} {segs : List (Word × List Byte)}

theorem Memory.writeSegments_wf (hwf : m.wf) (segs : List (Word × List Byte)) : (m.writeSegments segs).wf := by
  induction segs generalizing m with
  | nil => exact hwf
  | cons seg segs ih => exact ih (Memory.writeBytes_wf seg.2 m seg.1.toNat hwf)

theorem Memory.read_writeSegments_outside (hwf : m.wf) {b : Nat} (hb : ∀ seg ∈ segs, OutsideSegment b seg) :
    (m.writeSegments segs).read b = m.read b := by
  induction segs generalizing m with
  | nil => rfl
  | cons seg segs ih =>
    obtain ⟨hseg, hsegs⟩ := List.forall_mem_cons.mp hb
    exact (ih (Memory.writeBytes_wf seg.2 m seg.1.toNat hwf) hsegs).trans (Memory.read_writeBytes_outside hwf hseg)

/-- Disjoint segments are all there in the end: what is written after a segment is outside it. -/
theorem Memory.read_writeSegments_inside (hwf : m.wf) (hdisj : segs.Pairwise DisjointSegments) {seg : Word × List Byte}
    (hseg : seg ∈ segs) {k : Nat} (hk : k < seg.2.length) : (m.writeSegments segs).read (seg.1.toNat + k) = seg.2[k] := by
  induction segs generalizing m with
  | nil => cases hseg
  | cons p segs ih =>
    obtain ⟨hp, hsegs⟩ := List.pairwise_cons.mp hdisj
    have hwf' := Memory.writeBytes_wf p.2 m p.1.toNat hwf
    rcases List.mem_cons.mp hseg with rfl | hseg
    · exact (Memory.read_writeSegments_outside hwf' fun q hq => (hp q hq).outsideSegment hk).trans
        (Memory.read_writeBytes_inside hwf seg.1.toNat hk)
    · exact ih hwf' hsegs hseg

theorem exists_offset_or_outside (segs : List (Word × List Byte)) (b : Nat) :
    (∃ seg ∈ segs, ∃ k < seg.2.length, b = seg.1.toNat + k) ∨ ∀ seg ∈ segs, OutsideSegment b seg := by
  refine or_iff_not_imp_right.mpr fun h => ?_
  push Not at h
  obtain ⟨seg, hseg, hin⟩ := h
  unfold OutsideSegment at hin
  exact ⟨seg, hseg, b - seg.1.toNat, by omega, by omega⟩

/-- Disjoint segments may be written in any order: every byte reads the same, and the canonical form has one memory for those bytes. -/
theorem Memory.writeSegments_perm (hwf : m.wf) {segs' : List (Word × List Byte)} (hdisj : segs.Pairwise DisjointSegments)
    (hperm : segs.Perm segs') : m.writeSegments segs = m.writeSegments segs' := by
  have hdisj' := hperm.pairwise hdisj DisjointSegments.symm
  refine Memory.eq_of_read_eq (Memory.writeSegments_wf hwf segs) (Memory.writeSegments_wf hwf segs') fun b => ?_
  rcases exists_offset_or_outside segs b with ⟨seg, hseg, k, hk, rfl⟩ | hout
  · rw [Memory.read_writeSegments_inside hwf hdisj hseg hk,
      Memory.read_writeSegments_inside hwf hdisj' (hperm.mem_iff.mp hseg) hk]
  · rw [Memory.read_writeSegments_outside hwf hout,
      Memory.read_writeSegments_outside hwf fun seg hseg => hout seg (hperm.mem_iff.mpr hseg)]

end WriteSegments

/-! ### Where loading and booting succeed -/

section Boot

variable {segs : List (Word × List Byte)} {s t : State}

theorem loadSegments_cons_eq_ok {seg : Word × List Byte} :
    loadSegments (seg :: segs) s = .ok t ↔ ∃ u, loadSegment seg.1 seg.2 s = .ok u ∧ loadSegments segs u = .ok t := by
  rw [loadSegments]
  cases loadSegment seg.1 seg.2 s <;> simp

theorem boot_eq_ok : boot segs s = .ok t ↔ ∃ u, loadSegments segs (hostReset s) = .ok u ∧ t = seedPc entry u := by
  rw [boot]
  cases loadSegments segs (hostReset s) <;> simp [eq_comm]

theorem loadSegments_eq_ok_iff : loadSegments segs s = .ok t ↔
    (∀ seg ∈ segs, inBounds s.config seg.1 seg.2.length) ∧ t = { s with mem := s.mem.writeSegments segs } := by
  induction segs generalizing s with
  | nil => simp [loadSegments, Memory.writeSegments, eq_comm]
  | cons seg segs ih =>
    rw [loadSegments_cons_eq_ok, List.forall_mem_cons]
    constructor
    · rintro ⟨u, hseg, hsegs⟩
      obtain ⟨hb, rfl⟩ := loadSegment_eq_ok seg.1 seg.2 s u hseg
      obtain ⟨hbs, ht⟩ := ih.mp hsegs
      exact ⟨⟨hb, hbs⟩, ht⟩
    · rintro ⟨⟨hb, hbs⟩, ht⟩
      exact ⟨_, loadSegment_in seg.1 seg.2 s hb, ih.mpr ⟨hbs, ht⟩⟩

/-- The core with an image loaded and `ENTRY` seeded; `boot_eq_ok_iff` ties it to the model. -/
def bootedState (c : Config) (segs : List (Word × List Byte)) : State :=
  { State.resetWith c with mem := Memory.writeSegments [] segs, pc := entry }

theorem boot_eq_ok_iff : boot segs s = .ok t ↔
    (∀ seg ∈ segs, inBounds s.config seg.1 seg.2.length) ∧ t = bootedState s.config segs := by
  rw [boot_eq_ok]
  constructor
  · rintro ⟨u, hload, rfl⟩
    obtain ⟨hb, rfl⟩ := loadSegments_eq_ok_iff.mp hload
    exact ⟨hb, rfl⟩
  · rintro ⟨hb, rfl⟩
    exact ⟨_, loadSegments_eq_ok_iff.mpr ⟨hb, rfl⟩, rfl⟩

/-- What boot leaves: a running core at `ENTRY`, every register 0, the image and zeros in memory (R220, R223). -/
theorem bootedState_spec (c : Config) (hdisj : segs.Pairwise DisjointSegments) :
    (bootedState c segs).pc = 0x80000000#32 ∧ (bootedState c segs).status = .running ∧ (∀ r, (bootedState c segs).x r = 0#32) ∧
      (∀ seg ∈ segs, ∀ k (h : k < seg.2.length), (bootedState c segs).byte (seg.1.toNat + k) = seg.2[k]) ∧
      ∀ b, (∀ seg ∈ segs, OutsideSegment b seg) → (bootedState c segs).byte b = 0#8 :=
  ⟨rfl, rfl, State.resetWith_x c, fun _ hseg _ hk => Memory.read_writeSegments_inside Memory.wf_nil hdisj hseg hk,
    fun _ hb => Memory.read_writeSegments_outside Memory.wf_nil hb⟩

theorem bootedState_perm (c : Config) {segs' : List (Word × List Byte)} (hdisj : segs.Pairwise DisjointSegments)
    (hperm : segs.Perm segs') : bootedState c segs = bootedState c segs' := by
  rw [bootedState, Memory.writeSegments_perm Memory.wf_nil hdisj hperm, bootedState]

end Boot

/-- Settles O50: an image of one segment has no two that overlap. -/
theorem bootLoadsTheImage : Obligations.BootLoadsTheImage := by
  intro s t a bs hboot
  obtain ⟨-, rfl⟩ := boot_eq_ok_iff.mp hboot
  obtain ⟨hpc, hst, hx, hin, hout⟩ := bootedState_spec s.config (List.pairwise_singleton DisjointSegments (a, bs))
  exact ⟨hpc, hst, hx, hin (a, bs) (List.mem_singleton_self _), fun b hb => hout b (List.forall_mem_singleton.mpr hb)⟩

/-- Settles O58: success asks only for the bounds of each segment, which no order changes, and disjoint segments leave one memory. -/
theorem properImagesBootInAnyOrder : Obligations.ProperImagesBootInAnyOrder := by
  intro segs segs' s ⟨hb, hdisj⟩ hperm
  refine ⟨bootedState s.config segs, boot_eq_ok_iff.mpr ⟨hb, rfl⟩, boot_eq_ok_iff.mpr ⟨?_, ?_⟩, bootedState_spec s.config hdisj⟩
  · exact fun seg hseg => hb seg (hperm.mem_iff.mpr hseg)
  · exact bootedState_perm s.config hdisj hperm

/-- Settles O51: reset leaves the pc at 0, below the memory, so the fetch of the next step is out of bounds. -/
theorem unseededRunFaultsAtAddressZero : Obligations.UnseededRunFaultsAtAddressZero := fun s =>
  (fetchReadsTheWordAtThePc (hostReset s)).2 rfl fun ⟨hlo, _⟩ => absurd hlo (by decide : ¬ memBase ≤ 0)

end Sys2Proof.Machine
end

section
/-! PROOFS. The host's moves (70_reset_and_hazards.md R225 to R228): when each is allowed, what it does, and what every sequence of them
keeps. -/

namespace Sys2Proof.Machine

/-! ### One move -/

theorem hostMove_of_allows {m : HostMove} {h : Session} (ha : h.allows m = true) : hostMove m h = some (h.perform m) := if_pos ha

theorem hostMove_of_not_allows {m : HostMove} {h : Session} (ha : ¬ h.allows m = true) : hostMove m h = none := if_neg ha

theorem isSome_hostMove (m : HostMove) (h : Session) : (hostMove m h).isSome = h.allows m := by
  by_cases ha : h.allows m = true
  · rw [hostMove_of_allows ha, ha, Option.isSome_some]
  · rw [hostMove_of_not_allows ha, Bool.eq_false_iff.mpr ha, Option.isSome_none]

theorem allows_load_iff {h : Session} {a : Word} {bs : List Byte} :
    h.allows (.load a bs) = true ↔ h.phase = .loading ∨ h.phase = .seeded := decide_eq_true_iff

theorem allows_seed_iff {h : Session} {p : Word} : h.allows (.seed p) = true ↔ h.phase = .loading := decide_eq_true_iff

theorem allows_step_iff {h : Session} : h.allows .step = true ↔ h.phase ≠ .unreset ∧ h.core.status = .running := decide_eq_true_iff

/-- Settles O53: a move is possible exactly where the session allows it, and each clause is one row of `Session.allows`. -/
theorem hostMovesAreAllowedAsTheTableSays : Obligations.HostMovesAreAllowedAsTheTableSays := by
  intro h
  simp only [isSome_hostMove]
  refine ⟨rfl, fun _ _ => allows_load_iff, fun _ => allows_seed_iff, allows_step_iff, fun _ => rfl, fun _ => rfl, fun m hm => ?_⟩
  simp only [List.mem_cons, List.not_mem_nil, or_false] at hm
  rcases hm with rfl | rfl | rfl <;> rfl

section Moves

variable {h : Session} {a : Word} {bs : List Byte} {t : State}

theorem hostMove_load_ok (hph : h.phase = .loading ∨ h.phase = .seeded) (hload : loadSegment a bs h.core = .ok t) :
    hostMove (.load a bs) h = some ({ core := t, phase := h.phase }, .ok) := by
  rw [hostMove_of_allows (allows_load_iff.mpr hph), Session.perform, hload]

theorem hostMove_load_error {e : SegmentOutOfBounds} (hph : h.phase = .loading ∨ h.phase = .seeded)
    (hload : loadSegment a bs h.core = .error e) : hostMove (.load a bs) h = some (h, .outOfBounds e) := by
  rw [hostMove_of_allows (allows_load_iff.mpr hph), Session.perform, hload]

theorem hostMove_seed {p : Word} (hph : h.phase = .loading) :
    hostMove (.seed p) h = some ({ core := seedPc p h.core, phase := .seeded }, .nothing) :=
  hostMove_of_allows (allows_seed_iff.mpr hph)

theorem hostMove_step (hph : h.phase ≠ .unreset) (hstep : step h.core = .next t) :
    hostMove .step h = some ({ core := t, phase := .stepping }, .newStatus t.status) := by
  rw [hostMove_of_allows (allows_step_iff.mpr ⟨hph, step_eq_next_running hstep⟩), Session.perform, hstep]

end Moves

/-- An index that is a register's number reads that register. -/
theorem State.readIndex_toNat (s : State) (r : Reg) (hr : r.toNat < 33) : s.readIndex ⟨r.toNat, hr⟩ = s.x r := by
  rw [State.readIndex, if_neg (Nat.ne_of_lt r.isLt), BitVec.ofNat_toNat, BitVec.setWidth_eq]

/-- Settles O54: the moves that need a window have a lemma each; the others are always allowed and do what `Session.perform` says. -/
theorem hostMovesDoAsTheTableSays : Obligations.HostMovesDoAsTheTableSays := by
  intro h
  refine ⟨rfl, fun a bs hph => ⟨fun t => hostMove_load_ok hph, fun e => hostMove_load_error hph⟩, fun p => hostMove_seed,
    fun t => hostMove_step, fun r => ?_, rfl, rfl, rfl, fun a => rfl, rfl⟩
  rw [hostMove_of_allows rfl, Session.perform, State.readIndex_toNat]

/-! ### Sequences of moves -/

/-- What each of the moves keeps, the sequence keeps. -/
theorem hostMoves_keep {P : Session → Prop} {ms : List HostMove} {h k : Session}
    (hkeep : ∀ m ∈ ms, ∀ h k r, P h → hostMove m h = some (k, r) → P k) (hms : hostMoves ms h = some k) (hP : P h) : P k := by
  induction ms generalizing h with
  | nil =>
    cases hms
    exact hP
  | cons m ms ih =>
    obtain ⟨hm, hrest⟩ := List.forall_mem_cons.mp hkeep
    obtain ⟨u, r, hmove, hmoves⟩ := (hostMoves_cons m ms h k).mp hms
    exact ih hrest hmoves (hm h u r hP hmove)

theorem hostMoves_append {ms ns : List HostMove} {h k l : Session} (hms : hostMoves ms h = some k) (hns : hostMoves ns k = some l) :
    hostMoves (ms ++ ns) h = some l := by
  induction ms generalizing h with
  | nil =>
    cases hms
    exact hns
  | cons m ms ih =>
    obtain ⟨u, r, hmove, hmoves⟩ := (hostMoves_cons m ms h k).mp hms
    exact (hostMoves_cons m (ms ++ ns) h l).mpr ⟨u, r, hmove, ih hmoves⟩

/-! ### The host's window -/

theorem hostRun_succ_of_step_hostRun {s t : State} {n : Nat} (hstep : step (hostRun n s) = .next t) : hostRun (n + 1) s = t := by
  rw [hostRun_add, hostRun_succ_of_step hstep, hostRun]

/-- The phase and the core of a session whose host has begun to step a core from `s` and has not reset it since (R225, R228). -/
def SteppingFrom (s : State) (h : Session) : Prop := h.phase = .stepping ∧ ∃ n, h.core = hostRun n s

theorem SteppingFrom.after_move {s : State} {h k : Session} {m : HostMove} {r : HostReply} (hs : SteppingFrom s h) (hm : m ≠ .reset)
    (hmove : hostMove m h = some (k, r)) : SteppingFrom s k := by
  obtain ⟨hph, n, hcore⟩ := hs
  obtain ⟨rfl, -⟩ | ⟨rfl, -⟩ | ⟨a, bs, t, -, hopen, -⟩ | ⟨p, -, hopen, -⟩ | ⟨t, -, -, -, hstep, rfl⟩ := hostMove_cases m h k r hmove
  · exact ⟨hph, n, hcore⟩
  · exact absurd rfl hm
  · simp [hph] at hopen
  · simp [hph] at hopen
  · rw [hcore] at hstep
    exact ⟨rfl, n + 1, (hostRun_succ_of_step_hostRun hstep).symm⟩

/-- The pc has been seeded, or the host steps without a seed: it may not seed any more (R225). -/
def SeedSpent (h : Session) : Prop := h.phase = .seeded ∨ h.phase = .stepping

theorem SeedSpent.after_move {h k : Session} {m : HostMove} {r : HostReply} (hs : SeedSpent h) (hm : m ≠ .reset)
    (hmove : hostMove m h = some (k, r)) : SeedSpent k := by
  obtain ⟨rfl, -⟩ | ⟨rfl, -⟩ | ⟨a, bs, t, -, -, -, rfl⟩ | ⟨p, -, -, rfl⟩ | ⟨t, -, -, -, -, rfl⟩ := hostMove_cases m h k r hmove
  · exact hs
  · exact absurd rfl hm
  · exact hs
  · exact .inl rfl
  · exact .inr rfl

theorem SeedSpent.seed_refused {h : Session} (hs : SeedSpent h) (p : Word) : hostMove (.seed p) h = none := by
  refine hostMove_of_not_allows fun ha => ?_
  rcases hs with hph | hph <;> cases hph.symm.trans (allows_seed_iff.mp ha)

theorem SteppingFrom.load_refused {s : State} {h : Session} (hs : SteppingFrom s h) (a : Word) (bs : List Byte) :
    hostMove (.load a bs) h = none := by
  refine hostMove_of_not_allows fun ha => ?_
  rcases allows_load_iff.mp ha with hph | hph <;> cases hs.1.symm.trans hph

theorem steppingFrom_of_step {h k : Session} {r : HostReply} (hmove : hostMove .step h = some (k, r)) : SteppingFrom k.core k := by
  obtain ⟨ha, -⟩ := (hostMove_eq_some .step h k r).mp hmove
  obtain ⟨hph, hrun⟩ := allows_step_iff.mp ha
  obtain ⟨t, ht⟩ := exists_step_of_running hrun
  cases hmove.symm.trans (hostMove_step hph ht)
  exact ⟨rfl, 0, rfl⟩

theorem seedSpent_of_seed {h k : Session} {p : Word} {r : HostReply} (hmove : hostMove (.seed p) h = some (k, r)) : SeedSpent k := by
  obtain ⟨ha, -⟩ := (hostMove_eq_some (.seed p) h k r).mp hmove
  cases hmove.symm.trans (hostMove_seed (allows_seed_iff.mp ha))
  exact .inl rfl

/-- Settles O55: without a reset the moves after a step keep the session stepping from there, and the moves after a seed keep it spent. -/
theorem hostWritesOnlyBeforeTheFirstStep : Obligations.HostWritesOnlyBeforeTheFirstStep := by
  intro h k k' r ms hreset hms
  have hne : ∀ m ∈ ms, m ≠ .reset := fun m hm hr => hreset (hr ▸ hm)
  refine ⟨fun hstep => ?_, fun p hseed => ?_⟩
  · have hk' : SteppingFrom k.core k' :=
      hostMoves_keep (fun m hm _ _ _ hs => hs.after_move (hne m hm)) hms (steppingFrom_of_step hstep)
    exact ⟨hk'.load_refused, SeedSpent.seed_refused (.inr hk'.1), hk'.2⟩
  · have hk' : SeedSpent k' := hostMoves_keep (fun m hm _ _ _ hs => hs.after_move (hne m hm)) hms (seedSpent_of_seed hseed)
    exact hk'.seed_refused

/-! ### The invariant of the session -/

theorem hostReset_inv {s : State} (hs : s.Inv) : (hostReset s).Inv := resetWith_inv hs.1

theorem loadSegment_inv {a : Word} {bs : List Byte} {s t : State} (hs : s.Inv) (hrun : s.status = .running)
    (hload : loadSegment a bs s = .ok t) : t.Inv := by
  obtain ⟨hb, rfl⟩ := loadSegment_eq_ok a bs s t hload
  exact hs.writeBytes hrun hb

theorem loadSegment_status {a : Word} {bs : List Byte} {s t : State} (hload : loadSegment a bs s = .ok t) : t.status = s.status := by
  obtain ⟨-, rfl⟩ := loadSegment_eq_ok a bs s t hload
  rfl

theorem seedPc_inv {s : State} (hs : s.Inv) (hrun : s.status = .running) (p : Word) : (seedPc p s).Inv := hs.setPc hrun p

theorem hostMove_inv {h k : Session} {m : HostMove} {r : HostReply} (hinv : h.Inv) (hmove : hostMove m h = some (k, r)) : k.Inv := by
  obtain ⟨hs, hrun⟩ := hinv
  obtain ⟨rfl, -⟩ | ⟨-, rfl⟩ | ⟨a, bs, t, -, hopen, hload, rfl⟩ | ⟨p, -, hopen, rfl⟩ | ⟨t, -, -, -, hstep, rfl⟩ :=
    hostMove_cases m h k r hmove
  · exact ⟨hs, hrun⟩
  · exact ⟨hostReset_inv hs, fun _ => rfl⟩
  · exact ⟨loadSegment_inv hs (hrun hopen) hload, fun _ => (loadSegment_status hload).trans (hrun hopen)⟩
  · exact ⟨seedPc_inv hs (hrun (.inl hopen)) p, fun _ => hrun (.inl hopen)⟩
  · exact ⟨stepKeepsTheInvariant h.core t hs hstep, by simp⟩

theorem unreset_inv {s : State} (hs : s.Inv) : Session.Inv { core := s, phase := .unreset } := ⟨hs, by simp⟩

/-- Settles O56: each operation keeps the core's invariant, and while the window is open the core is running. -/
theorem hostMovesKeepTheSessionInvariant : Obligations.HostMovesKeepTheSessionInvariant :=
  ⟨fun _ _ _ _ => hostMove_inv, fun _ => unreset_inv⟩

/-! ### Boot as a sequence of moves -/

theorem hostMoves_loads {segs : List (Word × List Byte)} {s t : State} (hload : loadSegments segs s = .ok t) :
    hostMoves (segs.map fun seg => .load seg.1 seg.2) { core := s, phase := .loading } = some { core := t, phase := .loading } := by
  induction segs generalizing s with
  | nil =>
    cases hload
    rfl
  | cons seg segs ih =>
    obtain ⟨u, hseg, hsegs⟩ := loadSegments_cons_eq_ok.mp hload
    exact (hostMoves_cons _ _ _ _).mpr ⟨_, _, hostMove_load_ok (.inl rfl) hseg, ih hsegs⟩

/-- Settles O57: the reset opens the window, each load keeps it open, and the seed of `ENTRY` is the last move. -/
theorem bootIsASequenceOfHostMoves : Obligations.BootIsASequenceOfHostMoves := by
  intro segs s t ph hboot
  obtain ⟨u, hload, rfl⟩ := boot_eq_ok.mp hboot
  exact hostMoves_append ((hostMoves_cons _ _ _ _).mpr ⟨_, _, rfl, hostMoves_loads hload⟩) rfl

/-- Settles O14: boot is a sequence of host moves, which keep the session's invariant, and ends in the phase where the core is running. -/
theorem hostOperationsKeepTheInvariant : Obligations.HostOperationsKeepTheInvariant := by
  intro s hs
  refine ⟨hostReset_inv hs, fun _ _ _ => loadSegment_inv hs, fun p hrun => seedPc_inv hs hrun p, fun segs t hboot => ?_⟩
  obtain ⟨hinv, hrun⟩ : Session.Inv { core := t, phase := .seeded } :=
    hostMoves_keep (fun _ _ _ _ _ => hostMove_inv) (bootIsASequenceOfHostMoves segs s t .unreset hboot) (unreset_inv hs)
  obtain ⟨u, -, rfl⟩ := boot_eq_ok.mp hboot
  exact ⟨hinv, rfl, hrun (.inr rfl)⟩

end Sys2Proof.Machine
end
